-- ==== Sys2Proof/Word.lean ====
section
/-! DEFINITION. The word and byte types of carpet CORE (spec/00_scope.md R7, R8). -/

namespace Sys2Proof

/-- A 32-bit pattern: a register, a stack slot, a heap word, an output word (R7 `WORD`, R8). -/
abbrev Word := BitVec 32

/-- A byte of the program buffer (R8). -/
abbrev Byte := BitVec 8

/-- A register field of an instruction: one byte, read as an unsigned index 0 to 255 (R84). -/
abbrev RegField := BitVec 8

end Sys2Proof
end

