-- ==== Sys2Proof/Config.lean ====
section
/-! DEFINITION. The parameters of carpet CORE (spec/00_scope.md R7) and its one free value,
`nan_result` (spec/42_float_arith.md R140 item 5). -/

namespace Sys2Proof

/-- The implementation parameters of R7. `WORD` is fixed at 32 bits by R7, and the program counter at
32 bits by R25 (log 2). -/
structure Config where
  /-- `NREG`: the number of general registers. -/
  nreg : Nat
  /-- `STACK_N`: the operand stack's capacity in words. -/
  stackN : Nat
  /-- `HEAP_H`: the heap arena's size in words. -/
  heapH : Nat
  /-- `PTR_BIAS`: what MALLOC adds to an allocator base (R71). -/
  ptrBias : Nat
  /-- `SEG_CAP`: the segment table's capacity, sentinel included (R33). -/
  segCap : Nat
  deriving DecidableEq, Repr

/-- The values this hardware takes (R7's table). -/
def Config.default : Config :=
  { nreg := 32, stackN := 256, heapH := 65536, ptrBias := 256, segCap := 65536 }

/-- The constraints R7 puts on the parameters. -/
def Config.valid (c : Config) : Bool :=
  decide (c.nreg ≤ 256) && decide (1 ≤ c.heapH) && decide (c.stackN + c.heapH ≤ 2 ^ 32) &&
    decide (1 ≤ c.segCap)

/-- FREE VALUE (log 4). Sign (bit 22) and payload (bits 21:0) of the quiet NaN that the `k`-th
NaN-producing float operation of a run returns: "a model must not assume one pattern" (R140 item 5).
It has no body, so nothing can be proved of its value. -/
opaque Config.nanDraw (k : Nat) : BitVec 23

end Sys2Proof
end

