-- ==== Sys2Proof/Syntax.lean ====
section
/-! DEFINITION. The instructions of carpet CORE: one constructor per row of spec/opcode_table.json
(spec/30_encoding.md R82). Operands stand in encoding order (b1, b2, b3; R94). Padding bytes and HLT's
ignored b1 carry no meaning (R85) and are no operands. -/

namespace Sys2Proof

/-- A decoded instruction. Register fields are bytes as fetched: a field that names no register is
turned away when the instruction runs (R84, BadRegister). -/
inductive Instr where
  /-- LOAD (opcode 0, R110): load a 32-bit literal. -/
  | load (rd : RegField) (imm : Word)
  /-- INC (opcode 1, R121): increment in place. -/
  | inc (r : RegField)
  /-- DEC (opcode 2, R122): decrement in place. -/
  | dec (r : RegField)
  /-- ADD (opcode 3, R123): add. -/
  | add (ra rb rd : RegField)
  /-- SUB (opcode 4, R124): subtract (`ra` minus `rb`). -/
  | sub (ra rb rd : RegField)
  /-- MUL (opcode 5, R125): multiply, low 32 bits. -/
  | mul (ra rb rd : RegField)
  /-- DIV (opcode 6, R126): signed divide, truncating. -/
  | div (ra rb rd : RegField)
  /-- MOD (opcode 7, R127): signed remainder, truncating. -/
  | mod (ra rb rd : RegField)
  /-- FADD (opcode 8, R141): float add. -/
  | fadd (ra rb rd : RegField)
  /-- FSUB (opcode 9, R142): float subtract. -/
  | fsub (ra rb rd : RegField)
  /-- FMUL (opcode 10, R143): float multiply. -/
  | fmul (ra rb rd : RegField)
  /-- FDIV (opcode 11, R144): float divide. -/
  | fdiv (ra rb rd : RegField)
  /-- EQ (opcode 12, R151): integer equal. -/
  | eq (ra rb rd : RegField)
  /-- NE (opcode 13, R152): integer not equal. -/
  | ne (ra rb rd : RegField)
  /-- GT (opcode 14, R153): signed greater than. -/
  | gt (ra rb rd : RegField)
  /-- LT (opcode 15, R154): signed less than. -/
  | lt (ra rb rd : RegField)
  /-- GTQ (opcode 16, R155): signed greater than or equal. -/
  | gtq (ra rb rd : RegField)
  /-- LTQ (opcode 17, R156): signed less than or equal. -/
  | ltq (ra rb rd : RegField)
  /-- FEQ (opcode 18, R158): float equal. -/
  | feq (ra rb rd : RegField)
  /-- FNE (opcode 19, R159): float not equal. -/
  | fne (ra rb rd : RegField)
  /-- FGT (opcode 20, R160): float greater than. -/
  | fgt (ra rb rd : RegField)
  /-- FLT (opcode 21, R161): float less than. -/
  | flt (ra rb rd : RegField)
  /-- FGTQ (opcode 22, R162): float greater than or equal. -/
  | fgtq (ra rb rd : RegField)
  /-- FLTQ (opcode 23, R163): float less than or equal. -/
  | fltq (ra rb rd : RegField)
  /-- JMP (opcode 24, R171): absolute jump to the value of `r`. -/
  | jmp (r : RegField)
  /-- JMPF (opcode 25, R172): relative jump forward by the value of `r`. -/
  | jmpf (r : RegField)
  /-- JMPB (opcode 26, R173): relative jump backward by the value of `r`. -/
  | jmpb (r : RegField)
  /-- JEQ (opcode 27, R174): jump to the value of `b` if `a` is nonzero. -/
  | jeq (a b : RegField)
  /-- JNE (opcode 28, R175): jump to the value of `b` if `a` is zero. -/
  | jne (a b : RegField)
  /-- PUSH (opcode 29, R190): push `r`. -/
  | push (r : RegField)
  /-- SPUSH (opcode 30, R191): reserve as many stack slots as `r` says. -/
  | spush (r : RegField)
  /-- POP (opcode 31, R192): pop into `r`. -/
  | pop (r : RegField)
  /-- SPOP (opcode 32, R193): discard as many stack slots as `r` says. -/
  | spop (r : RegField)
  /-- READ (opcode 33, R201): load the word at the address in `addr` into `dst`. -/
  | read (addr dst : RegField)
  /-- WRITE (opcode 34, R202): store `src` at the address in `addr`. -/
  | write (src addr : RegField)
  /-- MALLOC (opcode 35, R210): allocate as many heap words as `size` says, pointer to `dst`. -/
  | malloc (size dst : RegField)
  /-- FREE (opcode 36, R211): free the heap pointer in `ptr`. -/
  | free (ptr : RegField)
  /-- FTOI (opcode 37, R220): float to signed integer, truncating. -/
  | ftoi (src dst : RegField)
  /-- ITOF (opcode 38, R221): signed integer to float. -/
  | itof (src dst : RegField)
  /-- I32 (opcode 39, R222): reinterpret as signed integer (a bit copy). -/
  | i32 (src dst : RegField)
  /-- F32 (opcode 40, R223): unsigned integer to float. -/
  | f32 (src dst : RegField)
  /-- HLT (opcode 41, R230): halt with success. -/
  | hlt
  /-- PRINT (opcode 42, R231): emit `r` to the output port. -/
  | print (r : RegField)
  /-- MOV (opcode 43, R232): copy a register. -/
  | mov (src dst : RegField)
  /-- SREAD (opcode 44, R203): named in the format, semantics not given: always raises UnimplementedOpcode. -/
  | sread (b1 b2 : Byte)
  /-- SWRITE (opcode 45, R204): named in the format, semantics not given: always raises UnimplementedOpcode. -/
  | swrite (b1 b2 : Byte)
  deriving DecidableEq, Repr

end Sys2Proof
end

