-- ==== Sys2Proof/WellFormed.lean ====
section
/-! DEFINITION. When an instruction is well formed: every register field it uses names a register
(spec/30_encoding.md R84, spec/10_state.md R22). -/

namespace Sys2Proof

/-- The fields each opcode uses as registers: those R82 names. HLT's b1 and SREAD's and SWRITE's b1 and
b2 are not among them (R84). -/
def Instr.regFields : Instr → List RegField
  | .load rd _ => [rd]
  | .inc r => [r]
  | .dec r => [r]
  | .add ra rb rd => [ra, rb, rd]
  | .sub ra rb rd => [ra, rb, rd]
  | .mul ra rb rd => [ra, rb, rd]
  | .div ra rb rd => [ra, rb, rd]
  | .mod ra rb rd => [ra, rb, rd]
  | .fadd ra rb rd => [ra, rb, rd]
  | .fsub ra rb rd => [ra, rb, rd]
  | .fmul ra rb rd => [ra, rb, rd]
  | .fdiv ra rb rd => [ra, rb, rd]
  | .eq ra rb rd => [ra, rb, rd]
  | .ne ra rb rd => [ra, rb, rd]
  | .gt ra rb rd => [ra, rb, rd]
  | .lt ra rb rd => [ra, rb, rd]
  | .gtq ra rb rd => [ra, rb, rd]
  | .ltq ra rb rd => [ra, rb, rd]
  | .feq ra rb rd => [ra, rb, rd]
  | .fne ra rb rd => [ra, rb, rd]
  | .fgt ra rb rd => [ra, rb, rd]
  | .flt ra rb rd => [ra, rb, rd]
  | .fgtq ra rb rd => [ra, rb, rd]
  | .fltq ra rb rd => [ra, rb, rd]
  | .jmp r => [r]
  | .jmpf r => [r]
  | .jmpb r => [r]
  | .jeq a b => [a, b]
  | .jne a b => [a, b]
  | .push r => [r]
  | .spush r => [r]
  | .pop r => [r]
  | .spop r => [r]
  | .read addr dst => [addr, dst]
  | .write src addr => [src, addr]
  | .malloc size dst => [size, dst]
  | .free ptr => [ptr]
  | .ftoi src dst => [src, dst]
  | .itof src dst => [src, dst]
  | .i32 src dst => [src, dst]
  | .f32 src dst => [src, dst]
  | .hlt => []
  | .print r => [r]
  | .mov src dst => [src, dst]
  | .sread _ _ => []
  | .swrite _ _ => []

/-- Every used register field is below `NREG`. -/
def Instr.wellFormed (c : Config) (i : Instr) : Bool :=
  i.regFields.all fun f => decide (f.toNat < c.nreg)

end Sys2Proof
end

