-- ==== Sys2Proof/Machine/State.lean ====
section
/-! DEFINITION. The state of carpet CORE (spec/10_state.md), as plain data, and the state right after
RESET (R40, R271). -/

namespace Sys2Proof.Machine

/-- A sparse array of words, index to value: the form in which State holds the registers, the stack and
the heap arena. Canonical form (`Memory.wf`, Machine/Ops.lean): indices strictly rising, and no entry
equal to what an unlisted index reads as (log 3). -/
abbrev Memory := List (Nat × Word)

/-- What an unlisted index reads as: 0, the RESET value of every register, stack slot and arena word
(R23, R30, R35). -/
def Memory.unlisted : Word := 0

/-- An entry of the segment table: `(base, len)` (R33). -/
structure Segment where
  base : Nat
  len : Nat
  deriving DecidableEq, Repr

/-- The eleven fault kinds of R241, in the order of their codes. -/
inductive FaultKind where
  /-- Code 1: PUSH or SPUSH past the stack's capacity. -/
  | stackOverflow
  /-- Code 2: POP or SPOP below 0. -/
  | stackUnderflow
  /-- Code 3: MALLOC finds no fitting gap, or the segment table is full. -/
  | outOfMemory
  /-- Code 4: DIV or MOD by zero. -/
  | divideByZero
  /-- Code 5: FREE of a pointer that is no live allocation's base. -/
  | invalidFree
  /-- Code 6: the instruction runs past the end of the program. -/
  | truncatedInstruction
  /-- Code 7: an opcode byte 46 to 255. -/
  | illegalOpcode
  /-- Code 8: a used register field at or above `NREG`. -/
  | badRegister
  /-- Code 9: READ or WRITE at or above `STACK_N + HEAP_H`. -/
  | badAddress
  /-- Code 10: a relative jump target outside [0, 2^32). -/
  | badJumpTarget
  /-- Code 11: SREAD or SWRITE. -/
  | unimplementedOpcode
  deriving DecidableEq, Repr

/-- The engine's state machine, "Running → Running, Halted(Success), Halted(Fault(kind))", with the Idle
state of R31. It is the whole content of the STATUS register (log 5); `State.statusWord` is its 32-bit
view. -/
inductive Engine where
  /-- After RESET or LOAD_PROGRAM, before RUN. -/
  | idle
  | running
  /-- Halted(Success). -/
  | success
  /-- Halted(Fault(kind)). -/
  | fault (kind : FaultKind)
  deriving DecidableEq, Repr

/-- Why an operation stops with a fault of the MODEL. A fault of the spec is none of these: its entry is a
next state, `State.raise` (R240, log 6), and no step of the machine ends in `Host.Outcome.fault`. -/
inductive Fault where
  /-- Raised by `hostRead` alone, when the host names a register, stack slot, arena word or program byte
  that does not exist (R40's ranges, log 18). Safe: the model stops where the spec defines no read. -/
  | hostReadOutOfRange
  deriving DecidableEq, Repr

/-- Why an operation is refused. -/
inductive Refusal where
  /-- An arm of `exec` whose instruction has no meaning yet. Safe: nothing can be proved of such a run. -/
  | notModelled (mnemonic : String)
  /-- Raised by `hostCommand`: LOAD_PROGRAM or RUN while Running, moves that "do not exist in a model"
  (R270). Safe: the model has no such transition. -/
  | hostCommandWhileRunning
  /-- Raised by `hostCommand`: LOAD_PROGRAM of more than 2^32 - 1 bytes (R7 `L`, R272). Safe. -/
  | programTooLong
  /-- Raised by `hostRead`: a read of state other than STATUS while Running (R270). Safe. -/
  | hostReadWhileRunning
  deriving DecidableEq, Repr

/-- Every piece of state of the CORE (R40), its parameters, and the model's own draw counter. -/
structure State where
  /-- The parameters of R7: fixed for the machine, changed by no step and no command (log 1). -/
  cfg : Config
  /-- The program counter, a byte offset into the program (R25). -/
  pc : Word
  /-- `x[0..NREG-1]`, the general registers (R20). -/
  regs : Memory
  /-- `P`, the program's bytes; `L` is its length (R24). -/
  prog : List Byte
  /-- `S[0..STACK_N-1]`, the operand stack (R28). -/
  stack : Memory
  /-- The stack pointer, the number of occupied slots (R29). -/
  sp : Nat
  /-- `Hp[0..HEAP_H-1]`, the heap arena (R32). -/
  heap : Memory
  /-- `seg[0..cnt-1]`, the segment table, sentinel last; `cnt` is its length (R33). -/
  segs : List Segment
  /-- What STATUS holds (R31). -/
  engine : Engine
  /-- The output stream since power-on, oldest word first (R39). -/
  output : List Word
  /-- THE MODEL'S OWN: how many values of `Config.nanDraw` have been drawn (R140 item 5, log 4). -/
  nanDraws : Nat
  deriving DecidableEq, Repr

/-- The state right after RESET at power-on, for any parameters (R40, R271): the segment table holds the
sentinel alone. `nanDraws` is the model's own field; its 0 is a DESIGN CHOICE (log 4). -/
def State.resetWith (c : Config) : State :=
  { cfg := c, pc := 0, regs := [], prog := [], stack := [], sp := 0, heap := [],
    segs := [⟨c.heapH - 1, 0⟩], engine := .idle, output := [], nanDraws := 0 }

/-- The state right after RESET at power-on, at this hardware's parameters (R7, R271). -/
def State.reset : State := State.resetWith Config.default

end Sys2Proof.Machine
end

