-- ==== Sys2Proof/Machine/Ops.lean ====
section
/-! DEFINITION. The named operations over the state: sparse memories, registers, the program counter, the
unified data space (spec/20_memory.md), taking a fault and halting (spec/60_exceptions.md R240), the
output port (R252), and the 32-bit view of STATUS (spec/10_state.md R31). -/

namespace Sys2Proof.Machine

/-! ### Sparse memories (log 3) -/

/-- The value at index `k`. -/
def Memory.read (m : Memory) (k : Nat) : Word :=
  match m with
  | [] => Memory.unlisted
  | (a, v) :: rest => if a = k then v else Memory.read rest k

/-- The entries other than those at index `k`. -/
def Memory.erase (m : Memory) (k : Nat) : Memory :=
  m.filter fun c => decide (c.1 ≠ k)

/-- A new entry put in its place by index. -/
def Memory.insert (m : Memory) (k : Nat) (v : Word) : Memory :=
  match m with
  | [] => [(k, v)]
  | (a, w) :: rest => if k < a then (k, v) :: (a, w) :: rest else (a, w) :: Memory.insert rest k v

/-- Index `k` takes the value `v`; writing what an unlisted index reads as removes the entry. -/
def Memory.write (m : Memory) (k : Nat) (v : Word) : Memory :=
  if v = Memory.unlisted then m.erase k else (m.erase k).insert k v

/-- The canonical form: indices strictly rising, no entry equal to what an unlisted index reads as. -/
def Memory.wf (m : Memory) : Bool :=
  decide (m.Pairwise fun c d => c.1 < d.1) && m.all fun c => decide (c.2 ≠ Memory.unlisted)

/-- Every listed index is below `n`: the memory holds nothing outside an array of `n` words. -/
def Memory.below (m : Memory) (n : Nat) : Bool :=
  m.all fun c => decide (c.1 < n)

/-! ### Registers and the program counter -/

/-- `x[r]`, the 32-bit pattern of register `r` (R10). -/
def State.reg (s : State) (r : RegField) : Word :=
  s.regs.read r.toNat

/-- `x[r] <- v` (R10). -/
def State.setReg (s : State) (r : RegField) (v : Word) : State :=
  { s with regs := s.regs.write r.toNat v }

/-- `pc <- target` (R10). -/
def State.jumpTo (s : State) (target : Word) : State :=
  { s with pc := target }

/-- `pc <- npc`, for an instruction of `width` bytes that stands at pc (R26). -/
def State.advance (s : State) (width : Nat) : State :=
  { s with pc := s.pc + BitVec.ofNat 32 width }

/-- `L`, the length of the loaded program (R24). -/
def State.progLen (s : State) : Nat := s.prog.length

/-! ### STATUS, faults, halting -/

/-- The fault code of R241. -/
def FaultKind.code : FaultKind → Nat
  | .stackOverflow => 1
  | .stackUnderflow => 2
  | .outOfMemory => 3
  | .divideByZero => 4
  | .invalidFree => 5
  | .truncatedInstruction => 6
  | .illegalOpcode => 7
  | .badRegister => 8
  | .badAddress => 9
  | .badJumpTarget => 10
  | .unimplementedOpcode => 11

/-- STATUS.STATE (R31). -/
def Engine.stateField : Engine → BitVec 2
  | .idle => 0
  | .running => 1
  | .success => 2
  | .fault _ => 3

/-- STATUS.KIND (R31): the fault code when STATE is 3, otherwise 0. -/
def Engine.kindField : Engine → BitVec 4
  | .fault k => BitVec.ofNat 4 k.code
  | .idle | .running | .success => 0

/-- The STATUS register as the host reads it (R31): KIND in 7:4, STATE in 1:0, the rest 0. -/
def State.statusWord (s : State) : Word :=
  (0 : BitVec 24) ++ s.engine.kindField ++ (0 : BitVec 2) ++ s.engine.stateField

/-- TAKING A FAULT, `raise K` (R240): STATUS becomes Halted(Fault(K)). pc keeps `ipc` (R243): every
meaning checks its fault before its first write, so pc still holds the offset of the faulting
instruction. Nothing else changes (R242). There is no return from a fault inside the CORE (R248); the
host's RUN re-executes the instruction (Machine/HostPort.lean). -/
def State.raise (s : State) (k : FaultKind) : State :=
  { s with engine := .fault k }

/-- `halt_success` (R10): STATUS becomes Halted(Success). -/
def State.haltSuccess (s : State) : State :=
  { s with engine := .success }

/-- `Emit(v)` (R252): one word is appended to the output stream. -/
def State.emit (s : State) (v : Word) : State :=
  { s with output := s.output ++ [v] }

/-! ### The unified data space (R50 to R54) -/

/-- What a unified address reaches (R51). -/
inductive Place where
  | stack (k : Nat)
  | heap (k : Nat)
  deriving DecidableEq, Repr

/-- `Translate(a)` (R51); `none` is its BadAddress. -/
def translate (c : Config) (a : Nat) : Option Place :=
  if a < c.stackN then some (.stack a)
  else if a - c.stackN < c.heapH then some (.heap (a - c.stackN))
  else none

/-- The word at a place. -/
def State.readPlace (s : State) : Place → Word
  | .stack k => s.stack.read k
  | .heap k => s.heap.read k

/-- A word stored at a place. -/
def State.writePlace (s : State) (p : Place) (v : Word) : State :=
  match p with
  | .stack k => { s with stack := s.stack.write k v }
  | .heap k => { s with heap := s.heap.write k v }

/-- `MemRead(a, 1)` (R52); `none` is BadAddress. -/
def State.memRead (s : State) (a : Nat) : Option Word :=
  (translate s.cfg a).map s.readPlace

/-- `MemWrite(a, 1, v)` (R52); `none` is BadAddress. -/
def State.memWrite (s : State) (a : Nat) (v : Word) : Option State :=
  (translate s.cfg a).map fun p => s.writePlace p v

/-! ### The operand stack (R28, R29) -/

/-- `S[k]`. -/
def State.slot (s : State) (k : Nat) : Word := s.stack.read k

/-- `S[k] <- v`. -/
def State.setSlot (s : State) (k : Nat) (v : Word) : State :=
  { s with stack := s.stack.write k v }

/-- `sp <- n`. -/
def State.setSp (s : State) (n : Nat) : State :=
  { s with sp := n }

/-- The segment table takes a new content. -/
def State.setSegs (s : State) (g : List Segment) : State :=
  { s with segs := g }

end Sys2Proof.Machine
end

