-- ==== Sys2Proof/Machine/Operands.lean ====
section
/-! DEFINITION. Operand forms: the interpretations of a register (spec/00_scope.md R8, spec/10_state.md
R21), the integer helpers (R11), the register-field check (spec/30_encoding.md R84, R97), and how a
result is retired. -/

namespace Sys2Proof.Machine

/-- The result of an instruction. -/
abbrev Result := Host.Outcome State Fault Refusal

/-- `sint(v)`: the two's-complement value (R8). -/
abbrev sint (v : Word) : Int := v.toInt

/-- `uint(v)`: the unsigned value (R8). -/
abbrev uint (v : Word) : Nat := v.toNat

/-- `u32(n)`: n mod 2^32 as a pattern (R8). -/
abbrev u32 (n : Int) : Word := BitVec.ofInt 32 n

/-- `tdiv(a, b)`: the quotient rounded toward zero (R11). -/
abbrev tdiv (a b : Int) : Int := Int.tdiv a b

/-- `trem(a, b)` = a - b * tdiv(a, b) (R11). -/
abbrev trem (a b : Int) : Int := a - b * tdiv a b

/-- Every field names a register (R84). -/
def State.fieldsOk (s : State) (fields : List RegField) : Bool :=
  fields.all fun f => decide (f.toNat < s.cfg.nreg)

/-- The register-field check of R97: the used fields first, BadRegister if one is at or above `NREG`,
otherwise the rule of the opcode. -/
def checkFields (fields : List RegField) (s : State) (rule : Result) : Result :=
  if s.fieldsOk fields then rule else .next (s.raise .badRegister)

/-- A 4-byte instruction whose one effect is `x[rd] <- v`. -/
def retireReg (s : State) (rd : RegField) (v : Word) : Result :=
  .next ((s.setReg rd v).advance 4)

/-- A one-register instruction that rewrites its register from the integer reading (format R1). -/
def intUnary (f : Int → Int) (r : RegField) (s : State) : Result :=
  checkFields [r] s <| retireReg s r (u32 (f (sint (s.reg r))))

/-- A three-register instruction on the integer readings, the exact result wrapped (R120, format R3). -/
def intBinary (f : Int → Int → Int) (ra rb rd : RegField) (s : State) : Result :=
  checkFields [ra, rb, rd] s <| retireReg s rd (u32 (f (sint (s.reg ra)) (sint (s.reg rb))))

/-- DIV and MOD: as `intBinary`, after DivideByZero on a zero divisor (R120, R126, R127). -/
def intDivide (f : Int → Int → Int) (ra rb rd : RegField) (s : State) : Result :=
  checkFields [ra, rb, rd] s <|
    if sint (s.reg rb) = 0 then .next (s.raise .divideByZero)
    else retireReg s rd (u32 (f (sint (s.reg ra)) (sint (s.reg rb))))

/-- A two-register instruction whose destination takes a function of the source (format R2). -/
def unaryTo (f : Word → Word) (src dst : RegField) (s : State) : Result :=
  checkFields [src, dst] s <| retireReg s dst (f (s.reg src))

end Sys2Proof.Machine
end

