-- ==== Sys2Proof/Machine/Float.lean ====
section
/-! DEFINITION. IEEE-754 binary32 (spec/00_scope.md R9, spec/42_float_arith.md R140), computed exactly.
Every finite binary32 datum is a whole multiple of 2^-149, the smallest subnormal, so a datum holds a
sign and that multiple; sums, products and quotients are exact fractions in the same unit and are rounded
once (log 12). -/

namespace Sys2Proof.Machine

/-- A binary32 datum. `finite neg mag` is (-1)^neg * mag * 2^-149. -/
inductive Datum where
  | nan
  | infinite (neg : Bool)
  | finite (neg : Bool) (mag : Nat)
  deriving DecidableEq, Repr

/-- How many units of 2^-149 make 1: the scale of `Datum.finite`. -/
def unitsPerOne : Nat := 2 ^ 149

/-- `f32(v)`: the datum a pattern encodes (R9): sign bit 31, exponent bits 30:23, fraction bits 22:0. -/
def f32 (v : Word) : Datum :=
  let neg := v.getLsbD 31
  let exponent := v.toNat / 2 ^ 23 % 256
  let fraction := v.toNat % 2 ^ 23
  if exponent = 255 then if fraction = 0 then .infinite neg else .nan
  else if exponent = 0 then .finite neg fraction
  else .finite neg ((2 ^ 23 + fraction) * 2 ^ (exponent - 1))

/-- A pattern from a sign and the 31 bits below it. -/
def withSign (neg : Bool) (p : Nat) : Word :=
  BitVec.ofNat 32 (if neg then 2 ^ 31 + p else p)

/-- The 31 low bits of an infinity: exponent 255, fraction 0. -/
def infinityBits : Nat := 255 * 2 ^ 23

/-- The pattern of an infinity (R140 item 3). -/
def infinityOf (neg : Bool) : Word := withSign neg infinityBits

/-- The whole number nearest to num / den, a tie going to the even one. -/
def roundHalfEven (num den : Nat) : Nat :=
  let q := num / den
  let r := num % den
  if 2 * r < den then q else if den < 2 * r then q + 1 else q + q % 2

/-- The exponent q of the spacing 2^q of binary32 data around x = num / den, in units of 2^-149: the q with
2^23 * 2^q ≤ x < 2^24 * 2^q (24-bit significands), and 0 for the subnormals, below 2^23. -/
def spacingExponent (num den : Nat) : Nat := Nat.log2 (num / (2 ^ 23 * den))

/-- The 31 low bits of num / den rounded, without a bound on the exponent. With q the spacing exponent
and r the rounded multiple of 2^q, the pattern is 2^23 * q + r: r carries the hidden bit, which adds 1 to
the exponent field, and a carry out of the significand adds 1 more. -/
def roundedBits (num den : Nat) : Nat :=
  let q := spacingExponent num den
  2 ^ 23 * q + roundHalfEven num (den * 2 ^ q)

/-- `bits(rne32(x))` for x = (-1)^neg * (num / den) * 2^-149, den not 0 (R9, R140 items 1 to 3): nearest,
ties to even, subnormals kept, overflow to infinity. -/
def rne32 (neg : Bool) (num den : Nat) : Word :=
  withSign neg (min (roundedBits num den) infinityBits)

/-- The signed value of a finite datum in units of 2^-149. -/
def signedMag (neg : Bool) (mag : Nat) : Int := if neg then -(mag : Int) else mag

/-- IEEE addition (R140): `none` is a NaN result. An exact zero sum is +0 but for (-0) + (-0). -/
def floatAdd (a b : Datum) : Option Word :=
  match a, b with
  | .nan, _ => none
  | .infinite _, .nan => none
  | .finite _ _, .nan => none
  | .infinite na, .infinite nb => if na = nb then some (infinityOf na) else none
  | .infinite na, .finite _ _ => some (infinityOf na)
  | .finite _ _, .infinite nb => some (infinityOf nb)
  | .finite na ma, .finite nb mb =>
    let sum := signedMag na ma + signedMag nb mb
    some (rne32 (if sum = 0 then na && nb else decide (sum < 0)) sum.natAbs 1)

/-- The datum with the other sign. -/
def Datum.negate : Datum → Datum
  | .nan => .nan
  | .infinite neg => .infinite (!neg)
  | .finite neg mag => .finite (!neg) mag

/-- IEEE subtraction (R140): a - b is a + (-b). -/
def floatSub (a b : Datum) : Option Word := floatAdd a b.negate

/-- IEEE multiplication (R140): `none` is a NaN result. The sign is the XOR of the operands' signs. -/
def floatMul (a b : Datum) : Option Word :=
  match a, b with
  | .nan, _ => none
  | .infinite _, .nan => none
  | .finite _ _, .nan => none
  | .infinite na, .infinite nb => some (infinityOf (na ^^ nb))
  | .infinite na, .finite nb mb => if mb = 0 then none else some (infinityOf (na ^^ nb))
  | .finite na ma, .infinite nb => if ma = 0 then none else some (infinityOf (na ^^ nb))
  | .finite na ma, .finite nb mb => some (rne32 (na ^^ nb) (ma * mb) unitsPerOne)

/-- IEEE division (R140): `none` is a NaN result. A nonzero finite datum over zero is an infinity. -/
def floatDiv (a b : Datum) : Option Word :=
  match a, b with
  | .nan, _ => none
  | .infinite _, .nan => none
  | .finite _ _, .nan => none
  | .infinite _, .infinite _ => none
  | .infinite na, .finite nb _ => some (infinityOf (na ^^ nb))
  | .finite na _, .infinite nb => some (withSign (na ^^ nb) 0)
  | .finite na ma, .finite nb mb =>
    if mb = 0 then if ma = 0 then none else some (infinityOf (na ^^ nb))
    else some (rne32 (na ^^ nb) (unitsPerOne * ma) mb)

/-- `bits(rne32(n))` for an integer n (R221, R223): 0 gives +0. -/
def intToFloat (n : Int) : Word := rne32 (decide (n < 0)) (unitsPerOne * n.natAbs) 1

/-- FTOI's integer (R220): NaN gives 0, values out of range saturate, the rest is rounded toward zero. -/
def floatToInt (f : Datum) : Int :=
  match f with
  | .nan => 0
  | .infinite neg => if neg then -2 ^ 31 else 2 ^ 31 - 1
  | .finite neg mag =>
    let x := signedMag neg mag
    if 2 ^ 31 * unitsPerOne ≤ x then 2 ^ 31 - 1
    else if x ≤ (-2 ^ 31 - 1) * unitsPerOne then -2 ^ 31
    else tdiv x unitsPerOne

/-- The quiet NaN of the k-th draw (R9, R140 item 5): exponent 0xFF, bit 22 set, the sign and the other
fraction bits from the free value `Config.nanDraw`. -/
def nanResult (k : Nat) : Word :=
  (Config.nanDraw k).extractLsb' 22 1 ++ (0x1FF : BitVec 9) ++ (Config.nanDraw k).extractLsb' 0 22

/-- A float result goes to `rd`: its pattern, or, for a NaN, the next draw of `nan_result` (log 4). -/
def State.setFloat (s : State) (rd : RegField) (r : Option Word) : State :=
  match r with
  | some v => s.setReg rd v
  | none => { s.setReg rd (nanResult s.nanDraws) with nanDraws := s.nanDraws + 1 }

/-- A three-register instruction on the float readings (R140, format R3). -/
def floatBinary (f : Datum → Datum → Option Word) (ra rb rd : RegField) (s : State) : Result :=
  checkFields [ra, rb, rd] s <|
    .next ((s.setFloat rd (f (f32 (s.reg ra)) (f32 (s.reg rb)))).advance 4)

end Sys2Proof.Machine
end

