-- ==== Sys2Proof/Machine/Flags.lean ====
section
/-! DEFINITION. The CORE has no flags and no condition codes (spec/10_state.md R36): a comparison writes
raw 1 or 0 into a general register (spec/43_compare.md R150). This file holds that result and the
float relations of R157. -/

namespace Sys2Proof.Machine

/-- The raw 1 or 0 of a comparison (R150). -/
def truthWord (holds : Bool) : Word := if holds then 1 else 0

/-- IEEE equality (R157): false on a NaN, +0 equals -0. -/
def Datum.eq (a b : Datum) : Bool :=
  match a, b with
  | .nan, _ => false
  | .infinite _, .nan => false
  | .finite _ _, .nan => false
  | .infinite na, .infinite nb => na == nb
  | .infinite _, .finite _ _ => false
  | .finite _ _, .infinite _ => false
  | .finite na ma, .finite nb mb => decide (signedMag na ma = signedMag nb mb)

/-- IEEE less-than (R157): false on a NaN, infinities are the extreme values. -/
def Datum.lt (a b : Datum) : Bool :=
  match a, b with
  | .nan, _ => false
  | .infinite _, .nan => false
  | .finite _ _, .nan => false
  | .infinite na, .infinite nb => na && !nb
  | .infinite na, .finite _ _ => na
  | .finite _ _, .infinite nb => !nb
  | .finite na ma, .finite nb mb => decide (signedMag na ma < signedMag nb mb)

/-- IEEE less-than-or-equal (R157): false on a NaN. -/
def Datum.le (a b : Datum) : Bool := Datum.lt a b || Datum.eq a b

/-- A comparison of the integer readings (R150, format R3). -/
def intCompare (rel : Int → Int → Bool) (ra rb rd : RegField) (s : State) : Result :=
  checkFields [ra, rb, rd] s <| retireReg s rd (truthWord (rel (sint (s.reg ra)) (sint (s.reg rb))))

/-- A comparison of the float readings (R150, R157, format R3). -/
def floatCompare (rel : Datum → Datum → Bool) (ra rb rd : RegField) (s : State) : Result :=
  checkFields [ra, rb, rd] s <| retireReg s rd (truthWord (rel (f32 (s.reg ra)) (f32 (s.reg rb))))

end Sys2Proof.Machine
end

