-- ==== Sys2Proof/Machine/Compare.lean ====
section
/-! DEFINITION. Comparisons (spec/43_compare.md): ra (b1) is the left operand, rb (b2) the right. -/

namespace Sys2Proof.Machine

/-- EQ (R151). -/
def execEq (ra rb rd : RegField) (s : State) : Result :=
  intCompare (fun a b => decide (a = b)) ra rb rd s

/-- NE (R152). -/
def execNe (ra rb rd : RegField) (s : State) : Result :=
  intCompare (fun a b => decide (a ≠ b)) ra rb rd s

/-- GT (R153): signed. -/
def execGt (ra rb rd : RegField) (s : State) : Result :=
  intCompare (fun a b => decide (b < a)) ra rb rd s

/-- LT (R154): signed. -/
def execLt (ra rb rd : RegField) (s : State) : Result :=
  intCompare (fun a b => decide (a < b)) ra rb rd s

/-- GTQ (R155): greater than or equal (D19). -/
def execGtq (ra rb rd : RegField) (s : State) : Result :=
  intCompare (fun a b => decide (b ≤ a)) ra rb rd s

/-- LTQ (R156): less than or equal (D19). -/
def execLtq (ra rb rd : RegField) (s : State) : Result :=
  intCompare (fun a b => decide (a ≤ b)) ra rb rd s

/-- FEQ (R158). -/
def execFeq (ra rb rd : RegField) (s : State) : Result := floatCompare Datum.eq ra rb rd s

/-- FNE (R159): the negation of FEQ, true on a NaN. -/
def execFne (ra rb rd : RegField) (s : State) : Result := floatCompare (fun a b => !Datum.eq a b) ra rb rd s

/-- FGT (R160). -/
def execFgt (ra rb rd : RegField) (s : State) : Result := floatCompare (fun a b => Datum.lt b a) ra rb rd s

/-- FLT (R161). -/
def execFlt (ra rb rd : RegField) (s : State) : Result := floatCompare Datum.lt ra rb rd s

/-- FGTQ (R162): greater than or equal (D19). -/
def execFgtq (ra rb rd : RegField) (s : State) : Result := floatCompare (fun a b => Datum.le b a) ra rb rd s

/-- FLTQ (R163): less than or equal (D19). -/
def execFltq (ra rb rd : RegField) (s : State) : Result := floatCompare Datum.le ra rb rd s

end Sys2Proof.Machine
end

