-- ==== Sys2Proof/Machine/Conversion.lean ====
section
/-! DEFINITION. Conversions and reinterpretation (spec/48_conversion.md). -/

namespace Sys2Proof.Machine

/-- FTOI (R220). -/
def execFtoi (src dst : RegField) (s : State) : Result :=
  unaryTo (fun v => u32 (floatToInt (f32 v))) src dst s

/-- ITOF (R221). -/
def execItof (src dst : RegField) (s : State) : Result := unaryTo (fun v => intToFloat (sint v)) src dst s

/-- I32 (R222): a bit copy. -/
def execI32 (src dst : RegField) (s : State) : Result := unaryTo (fun v => v) src dst s

/-- F32 (R223): the unsigned reading. -/
def execF32 (src dst : RegField) (s : State) : Result := unaryTo (fun v => intToFloat (uint v)) src dst s

end Sys2Proof.Machine
end

