-- ==== Sys2Proof/Machine/FloatArith.lean ====
section
/-! DEFINITION. Floating-point arithmetic (spec/42_float_arith.md). -/

namespace Sys2Proof.Machine

/-- FADD (R141). -/
def execFadd (ra rb rd : RegField) (s : State) : Result := floatBinary floatAdd ra rb rd s

/-- FSUB (R142): b1 minus b2 (D18). -/
def execFsub (ra rb rd : RegField) (s : State) : Result := floatBinary floatSub ra rb rd s

/-- FMUL (R143). -/
def execFmul (ra rb rd : RegField) (s : State) : Result := floatBinary floatMul ra rb rd s

/-- FDIV (R144): a zero divisor is no fault. -/
def execFdiv (ra rb rd : RegField) (s : State) : Result := floatBinary floatDiv ra rb rd s

end Sys2Proof.Machine
end

