-- ==== Sys2Proof/Machine/HaltPrintMove.lean ====
section
/-! DEFINITION. Halt, print and move (spec/49_halt_print_move.md). -/

namespace Sys2Proof.Machine

/-- HLT (R230): pc takes npc, then Halted(Success). -/
def execHlt (s : State) : Result := .next (s.advance 4).haltSuccess

/-- PRINT (R231): the raw pattern is emitted. -/
def execPrint (r : RegField) (s : State) : Result :=
  checkFields [r] s <| .next ((s.emit (s.reg r)).advance 4)

/-- MOV (R232). -/
def execMov (src dst : RegField) (s : State) : Result := unaryTo (fun v => v) src dst s

end Sys2Proof.Machine
end

