-- ==== Sys2Proof/Machine/Allocator.lean ====
section
/-! DEFINITION. The heap allocator (spec/20_memory.md R64 to R71): first fit by gap size over the
address-ordered segment table, no coalescing. Arithmetic is unbounded. -/

namespace Sys2Proof.Machine

/-- The scan of R64 from the probe cursor on: the first gap before an entry that the request fits (R65),
and the table with the new entry put immediately before that entry (R67). `none`: no gap fits. -/
def allocScan (size cursor : Nat) (segs : List Segment) : Option (Nat × List Segment) :=
  match segs with
  | [] => none
  | g :: rest =>
    if cursor + size ≤ g.base then some (cursor, ⟨cursor, size⟩ :: g :: rest)
    else (allocScan size (g.base + g.len) rest).map fun r => (r.1, g :: r.2)

/-- `Alloc(size)` (R64): the base and the new table, `none` is OutOfMemory: no gap fits, the base would
be at or beyond the arena's last index (R66), or the table is full (R67). -/
def alloc (c : Config) (segs : List Segment) (size : Nat) : Option (Nat × List Segment) :=
  match allocScan size 0 segs with
  | none => none
  | some (base, segs') =>
    if c.heapH - 1 ≤ base then none
    else if segs.length = c.segCap then none
    else some (base, segs')

/-- `Free(b)` (R68): the first live entry whose base is `b` is removed; the last entry, the sentinel, is
not searched. `none` is InvalidFree. -/
def release (segs : List Segment) (b : Nat) : Option (List Segment) :=
  match segs with
  | [] => none
  | [_] => none
  | g :: h :: rest =>
    if g.base = b then some (h :: rest) else (release (h :: rest) b).map fun r => g :: r

end Sys2Proof.Machine
end

