-- ==== Sys2Proof/Machine/Heap.lean ====
section
/-! DEFINITION. Heap allocation (spec/47_heap.md). -/

namespace Sys2Proof.Machine

/-- MALLOC (R210): the pointer is u32(base + PTR_BIAS) (R71); no arena word is touched. -/
def execMalloc (size dst : RegField) (s : State) : Result :=
  checkFields [size, dst] s <|
    match alloc s.cfg s.segs (uint (s.reg size)) with
    | none => .next (s.raise .outOfMemory)
    | some (base, segs') => retireReg (s.setSegs segs') dst (u32 ((base : Int) + s.cfg.ptrBias))

/-- FREE (R211): a pointer below PTR_BIAS is no heap pointer. -/
def execFree (ptr : RegField) (s : State) : Result :=
  checkFields [ptr] s <|
    if uint (s.reg ptr) < s.cfg.ptrBias then .next (s.raise .invalidFree)
    else
      match release s.segs (uint (s.reg ptr) - s.cfg.ptrBias) with
      | none => .next (s.raise .invalidFree)
      | some segs' => .next ((s.setSegs segs').advance 4)

end Sys2Proof.Machine
end

