-- ==== Sys2Proof/Machine/Integer.lean ====
section
/-! DEFINITION. Integer arithmetic (spec/41_integer.md). -/

namespace Sys2Proof.Machine

/-- INC (R121): wrapping +1 in place. -/
def execInc (r : RegField) (s : State) : Result := intUnary (fun a => a + 1) r s

/-- DEC (R122): wrapping -1 in place. -/
def execDec (r : RegField) (s : State) : Result := intUnary (fun a => a - 1) r s

/-- ADD (R123). -/
def execAdd (ra rb rd : RegField) (s : State) : Result := intBinary (fun a b => a + b) ra rb rd s

/-- SUB (R124): b1 minus b2 (D18). -/
def execSub (ra rb rd : RegField) (s : State) : Result := intBinary (fun a b => a - b) ra rb rd s

/-- MUL (R125): the low 32 bits of the product. -/
def execMul (ra rb rd : RegField) (s : State) : Result := intBinary (fun a b => a * b) ra rb rd s

/-- DIV (R126): toward zero; -2^31 / -1 wraps to 0x80000000 (D17). -/
def execDiv (ra rb rd : RegField) (s : State) : Result := intDivide tdiv ra rb rd s

/-- MOD (R127): the sign of the result is the dividend's, or it is zero. -/
def execMod (ra rb rd : RegField) (s : State) : Result := intDivide trem ra rb rd s

end Sys2Proof.Machine
end

