-- ==== Sys2Proof/Machine/Jump.lean ====
section
/-! DEFINITION. Jumps (spec/44_jumps.md). No delay slot, no link, no alignment (R170). -/

namespace Sys2Proof.Machine

/-- A relative jump to an unbounded target: BadJumpTarget outside [0, 2^32) (R170 item 1, D6). -/
def jumpRelative (target : Int) (s : State) : Result :=
  if target < 0 ∨ 2 ^ 32 ≤ target then .next (s.raise .badJumpTarget)
  else .next (s.jumpTo (u32 target))

/-- `npc` of a 4-byte instruction as an unbounded integer (R26). -/
def npcOf (s : State) : Int := uint s.pc + 4

/-- JMP (R171): pc takes the raw value of `r`. -/
def execJmp (r : RegField) (s : State) : Result :=
  checkFields [r] s <| .next (s.jumpTo (s.reg r))

/-- JMPF (R172): npc plus the signed value of `r`. -/
def execJmpf (r : RegField) (s : State) : Result :=
  checkFields [r] s <| jumpRelative (npcOf s + sint (s.reg r)) s

/-- JMPB (R173): npc minus the signed value of `r`. -/
def execJmpb (r : RegField) (s : State) : Result :=
  checkFields [r] s <| jumpRelative (npcOf s - sint (s.reg r)) s

/-- JEQ (R174): taken when the raw pattern of `a` is not 0. -/
def execJeq (a b : RegField) (s : State) : Result :=
  checkFields [a, b] s <| .next (if s.reg a ≠ 0 then s.jumpTo (s.reg b) else s.advance 4)

/-- JNE (R175): taken when the raw pattern of `a` is 0. -/
def execJne (a b : RegField) (s : State) : Result :=
  checkFields [a, b] s <| .next (if s.reg a = 0 then s.jumpTo (s.reg b) else s.advance 4)

end Sys2Proof.Machine
end

