-- ==== Sys2Proof/Machine/Literal.lean ====
section
/-! DEFINITION. LOAD (spec/40_literal.md). -/

namespace Sys2Proof.Machine

/-- LOAD (R110): `x[rd] <- imm`, raw bits; 8 bytes wide. -/
def execLoad (rd : RegField) (imm : Word) (s : State) : Result :=
  checkFields [rd] s <| .next ((s.setReg rd imm).advance 8)

end Sys2Proof.Machine
end

