-- ==== Sys2Proof/Machine/MemoryAccess.lean ====
section
/-! DEFINITION. Memory access (spec/46_memory_access.md). The only addressing mode is register indirect (R200). -/

namespace Sys2Proof.Machine

/-- READ (R201). -/
def execRead (addr dst : RegField) (s : State) : Result :=
  checkFields [addr, dst] s <|
    match s.memRead (uint (s.reg addr)) with
    | none => .next (s.raise .badAddress)
    | some v => retireReg s dst v

/-- WRITE (R202). -/
def execWrite (src addr : RegField) (s : State) : Result :=
  checkFields [src, addr] s <|
    match s.memWrite (uint (s.reg addr)) (s.reg src) with
    | none => .next (s.raise .badAddress)
    | some t => .next (t.advance 4)

/-- SREAD (R203): UnimplementedOpcode, always; b1 and b2 are not checked (R84, log 17). -/
def execSread (_b1 _b2 : Byte) (s : State) : Result := .next (s.raise .unimplementedOpcode)

/-- SWRITE (R204): UnimplementedOpcode, always; b1 and b2 are not checked (R84, log 17). -/
def execSwrite (_b1 _b2 : Byte) (s : State) : Result := .next (s.raise .unimplementedOpcode)

end Sys2Proof.Machine
end

