-- ==== Sys2Proof/Machine/StackOps.lean ====
section
/-! DEFINITION. The operand stack (spec/45_stack.md). Counts are unsigned and compared without wrapping. -/

namespace Sys2Proof.Machine

/-- PUSH (R190). -/
def execPush (r : RegField) (s : State) : Result :=
  checkFields [r] s <|
    if s.cfg.stackN ≤ s.sp then .next (s.raise .stackOverflow)
    else .next (((s.setSlot s.sp (s.reg r)).setSp (s.sp + 1)).advance 4)

/-- SPUSH (R191): slots are reserved, none is written. -/
def execSpush (r : RegField) (s : State) : Result :=
  checkFields [r] s <|
    if s.cfg.stackN < s.sp + uint (s.reg r) then .next (s.raise .stackOverflow)
    else .next ((s.setSp (s.sp + uint (s.reg r))).advance 4)

/-- POP (R192): the popped slot is not cleared. -/
def execPop (r : RegField) (s : State) : Result :=
  checkFields [r] s <|
    if s.sp = 0 then .next (s.raise .stackUnderflow)
    else .next (((s.setSp (s.sp - 1)).setReg r (s.slot (s.sp - 1))).advance 4)

/-- SPOP (R193): the discarded slots keep their contents. -/
def execSpop (r : RegField) (s : State) : Result :=
  checkFields [r] s <|
    if s.sp < uint (s.reg r) then .next (s.raise .stackUnderflow)
    else .next ((s.setSp (s.sp - uint (s.reg r))).advance 4)

end Sys2Proof.Machine
end

