-- ==== Sys2Proof/Machine/Dispatch.lean ====
section
/-! DEFINITION. The opcode dispatcher of the engine: one arm per instruction (spec/30_encoding.md R82). -/

namespace Sys2Proof.Machine

/-- One instruction, run where pc points at its first byte (R97, from the register-field check on). -/
def exec (i : Instr) (s : State) : Host.Outcome State Fault Refusal :=
  match i with
  | .load rd imm => Sys2Proof.Machine.execLoad rd imm s
  | .inc r => Sys2Proof.Machine.execInc r s
  | .dec r => Sys2Proof.Machine.execDec r s
  | .add ra rb rd => Sys2Proof.Machine.execAdd ra rb rd s
  | .sub ra rb rd => Sys2Proof.Machine.execSub ra rb rd s
  | .mul ra rb rd => Sys2Proof.Machine.execMul ra rb rd s
  | .div ra rb rd => Sys2Proof.Machine.execDiv ra rb rd s
  | .mod ra rb rd => Sys2Proof.Machine.execMod ra rb rd s
  | .fadd ra rb rd => Sys2Proof.Machine.execFadd ra rb rd s
  | .fsub ra rb rd => Sys2Proof.Machine.execFsub ra rb rd s
  | .fmul ra rb rd => Sys2Proof.Machine.execFmul ra rb rd s
  | .fdiv ra rb rd => Sys2Proof.Machine.execFdiv ra rb rd s
  | .eq ra rb rd => Sys2Proof.Machine.execEq ra rb rd s
  | .ne ra rb rd => Sys2Proof.Machine.execNe ra rb rd s
  | .gt ra rb rd => Sys2Proof.Machine.execGt ra rb rd s
  | .lt ra rb rd => Sys2Proof.Machine.execLt ra rb rd s
  | .gtq ra rb rd => Sys2Proof.Machine.execGtq ra rb rd s
  | .ltq ra rb rd => Sys2Proof.Machine.execLtq ra rb rd s
  | .feq ra rb rd => Sys2Proof.Machine.execFeq ra rb rd s
  | .fne ra rb rd => Sys2Proof.Machine.execFne ra rb rd s
  | .fgt ra rb rd => Sys2Proof.Machine.execFgt ra rb rd s
  | .flt ra rb rd => Sys2Proof.Machine.execFlt ra rb rd s
  | .fgtq ra rb rd => Sys2Proof.Machine.execFgtq ra rb rd s
  | .fltq ra rb rd => Sys2Proof.Machine.execFltq ra rb rd s
  | .jmp r => Sys2Proof.Machine.execJmp r s
  | .jmpf r => Sys2Proof.Machine.execJmpf r s
  | .jmpb r => Sys2Proof.Machine.execJmpb r s
  | .jeq a b => Sys2Proof.Machine.execJeq a b s
  | .jne a b => Sys2Proof.Machine.execJne a b s
  | .push r => Sys2Proof.Machine.execPush r s
  | .spush r => Sys2Proof.Machine.execSpush r s
  | .pop r => Sys2Proof.Machine.execPop r s
  | .spop r => Sys2Proof.Machine.execSpop r s
  | .read addr dst => Sys2Proof.Machine.execRead addr dst s
  | .write src addr => Sys2Proof.Machine.execWrite src addr s
  | .malloc size dst => Sys2Proof.Machine.execMalloc size dst s
  | .free ptr => Sys2Proof.Machine.execFree ptr s
  | .ftoi src dst => Sys2Proof.Machine.execFtoi src dst s
  | .itof src dst => Sys2Proof.Machine.execItof src dst s
  | .i32 src dst => Sys2Proof.Machine.execI32 src dst s
  | .f32 src dst => Sys2Proof.Machine.execF32 src dst s
  | .hlt => Sys2Proof.Machine.execHlt s
  | .print r => Sys2Proof.Machine.execPrint r s
  | .mov src dst => Sys2Proof.Machine.execMov src dst s
  | .sread b1 b2 => Sys2Proof.Machine.execSread b1 b2 s
  | .swrite b1 b2 => Sys2Proof.Machine.execSwrite b1 b2 s

end Sys2Proof.Machine
end

