-- ==== Sys2Proof/Decode.lean ====
section
/-! DEFINITION. The decoder, total on every byte sequence (spec/30_encoding.md R80 to R92), the encoder
over the same table (R81, R82), and the layout of an opcode-table word as program bytes. -/

namespace Sys2Proof

/-- The width in bytes of the instruction whose opcode byte is `op` (R83). -/
def widthOfOpcode (op : Byte) : Nat :=
  if op.toNat = 0 then 8 else 4

/-- `le32(b0, b1, b2, b3)`: little-endian assembly of four bytes (R10). -/
def le32 (b0 b1 b2 b3 : Byte) : Word :=
  b3 ++ b2 ++ b1 ++ b0

/-- Byte `k` of a word, byte 0 the least significant: what `le32` assembles. -/
def byteOf (v : Word) (k : Nat) : Byte :=
  v.extractLsb' (8 * k) 8

/-- What stands at the program counter (R92), the register check of R84 apart: it is made when the
instruction runs (log 7). -/
inductive Decoded where
  /-- No byte is left: the implicit end-of-program halt (R97). -/
  | endOfProgram
  /-- The opcode byte is 46 to 255 (R87). -/
  | illegalOpcode
  /-- The instruction runs past the end of the buffer (R90). -/
  | truncated
  /-- An instruction with its fields. -/
  | instr (i : Instr)
  deriving DecidableEq, Repr

/-- The opcode map of R82: the instruction of opcode number `op` with the operand bytes `b1` to `b5`
that follow it. The last arm is R87's. -/
def decodeOpcode (op : Nat) (b1 b2 b3 b4 b5 : Byte) : Decoded :=
  match op with
  | 0 => .instr (.load b1 (le32 b2 b3 b4 b5))
  | 1 => .instr (.inc b1)
  | 2 => .instr (.dec b1)
  | 3 => .instr (.add b1 b2 b3)
  | 4 => .instr (.sub b1 b2 b3)
  | 5 => .instr (.mul b1 b2 b3)
  | 6 => .instr (.div b1 b2 b3)
  | 7 => .instr (.mod b1 b2 b3)
  | 8 => .instr (.fadd b1 b2 b3)
  | 9 => .instr (.fsub b1 b2 b3)
  | 10 => .instr (.fmul b1 b2 b3)
  | 11 => .instr (.fdiv b1 b2 b3)
  | 12 => .instr (.eq b1 b2 b3)
  | 13 => .instr (.ne b1 b2 b3)
  | 14 => .instr (.gt b1 b2 b3)
  | 15 => .instr (.lt b1 b2 b3)
  | 16 => .instr (.gtq b1 b2 b3)
  | 17 => .instr (.ltq b1 b2 b3)
  | 18 => .instr (.feq b1 b2 b3)
  | 19 => .instr (.fne b1 b2 b3)
  | 20 => .instr (.fgt b1 b2 b3)
  | 21 => .instr (.flt b1 b2 b3)
  | 22 => .instr (.fgtq b1 b2 b3)
  | 23 => .instr (.fltq b1 b2 b3)
  | 24 => .instr (.jmp b1)
  | 25 => .instr (.jmpf b1)
  | 26 => .instr (.jmpb b1)
  | 27 => .instr (.jeq b1 b2)
  | 28 => .instr (.jne b1 b2)
  | 29 => .instr (.push b1)
  | 30 => .instr (.spush b1)
  | 31 => .instr (.pop b1)
  | 32 => .instr (.spop b1)
  | 33 => .instr (.read b1 b2)
  | 34 => .instr (.write b1 b2)
  | 35 => .instr (.malloc b1 b2)
  | 36 => .instr (.free b1)
  | 37 => .instr (.ftoi b1 b2)
  | 38 => .instr (.itof b1 b2)
  | 39 => .instr (.i32 b1 b2)
  | 40 => .instr (.f32 b1 b2)
  | 41 => .instr .hlt
  | 42 => .instr (.print b1)
  | 43 => .instr (.mov b1 b2)
  | 44 => .instr (.sread b1 b2)
  | 45 => .instr (.swrite b1 b2)
  | _ => .illegalOpcode

/-- The decoder: what the bytes from the program counter to the end of the buffer say, in the order of
checks of R97 and R245: end of program, opcode, length, fields. Bytes after the instruction, padding
among them (R85), are not looked at. -/
def decode (bytes : List Byte) : Decoded :=
  match bytes with
  | [] => .endOfProgram
  | op :: rest =>
    if 46 ≤ op.toNat then .illegalOpcode
    else if rest.length + 1 < widthOfOpcode op then .truncated
    else decodeOpcode op.toNat (rest.getD 0 0) (rest.getD 1 0) (rest.getD 2 0) (rest.getD 3 0) (rest.getD 4 0)

/-- The width in bytes of an instruction (R83). -/
def Instr.width : Instr → Nat
  | .load _ _ => 8
  | .inc _ => 4
  | .dec _ => 4
  | .add _ _ _ => 4
  | .sub _ _ _ => 4
  | .mul _ _ _ => 4
  | .div _ _ _ => 4
  | .mod _ _ _ => 4
  | .fadd _ _ _ => 4
  | .fsub _ _ _ => 4
  | .fmul _ _ _ => 4
  | .fdiv _ _ _ => 4
  | .eq _ _ _ => 4
  | .ne _ _ _ => 4
  | .gt _ _ _ => 4
  | .lt _ _ _ => 4
  | .gtq _ _ _ => 4
  | .ltq _ _ _ => 4
  | .feq _ _ _ => 4
  | .fne _ _ _ => 4
  | .fgt _ _ _ => 4
  | .flt _ _ _ => 4
  | .fgtq _ _ _ => 4
  | .fltq _ _ _ => 4
  | .jmp _ => 4
  | .jmpf _ => 4
  | .jmpb _ => 4
  | .jeq _ _ => 4
  | .jne _ _ => 4
  | .push _ => 4
  | .spush _ => 4
  | .pop _ => 4
  | .spop _ => 4
  | .read _ _ => 4
  | .write _ _ => 4
  | .malloc _ _ => 4
  | .free _ => 4
  | .ftoi _ _ => 4
  | .itof _ _ => 4
  | .i32 _ _ => 4
  | .f32 _ _ => 4
  | .hlt => 4
  | .print _ => 4
  | .mov _ _ => 4
  | .sread _ _ => 4
  | .swrite _ _ => 4

/-- Format `I` (R81): opcode, register, little-endian immediate, two zero padding bytes. -/
def encodeI (op rd : Byte) (imm : Word) : List Byte :=
  [op, rd, byteOf imm 0, byteOf imm 1, byteOf imm 2, byteOf imm 3, 0, 0]

/-- Format `R3` (R81): opcode and three register fields. -/
def encodeR3 (op ra rb rd : Byte) : List Byte :=
  [op, ra, rb, rd]

/-- Format `R2` (R81): opcode, two register fields, one zero padding byte. -/
def encodeR2 (op r1 r2 : Byte) : List Byte :=
  [op, r1, r2, 0]

/-- Format `R1` (R81): opcode, one register field, two zero padding bytes. -/
def encodeR1 (op r1 : Byte) : List Byte :=
  [op, r1, 0, 0]

/-- The encoder: the bytes of an instruction in program order, padding written as zero (R85). -/
def encode : Instr → List Byte
  | .load rd imm => encodeI 0x00 rd imm
  | .inc r => encodeR1 0x01 r
  | .dec r => encodeR1 0x02 r
  | .add ra rb rd => encodeR3 0x03 ra rb rd
  | .sub ra rb rd => encodeR3 0x04 ra rb rd
  | .mul ra rb rd => encodeR3 0x05 ra rb rd
  | .div ra rb rd => encodeR3 0x06 ra rb rd
  | .mod ra rb rd => encodeR3 0x07 ra rb rd
  | .fadd ra rb rd => encodeR3 0x08 ra rb rd
  | .fsub ra rb rd => encodeR3 0x09 ra rb rd
  | .fmul ra rb rd => encodeR3 0x0A ra rb rd
  | .fdiv ra rb rd => encodeR3 0x0B ra rb rd
  | .eq ra rb rd => encodeR3 0x0C ra rb rd
  | .ne ra rb rd => encodeR3 0x0D ra rb rd
  | .gt ra rb rd => encodeR3 0x0E ra rb rd
  | .lt ra rb rd => encodeR3 0x0F ra rb rd
  | .gtq ra rb rd => encodeR3 0x10 ra rb rd
  | .ltq ra rb rd => encodeR3 0x11 ra rb rd
  | .feq ra rb rd => encodeR3 0x12 ra rb rd
  | .fne ra rb rd => encodeR3 0x13 ra rb rd
  | .fgt ra rb rd => encodeR3 0x14 ra rb rd
  | .flt ra rb rd => encodeR3 0x15 ra rb rd
  | .fgtq ra rb rd => encodeR3 0x16 ra rb rd
  | .fltq ra rb rd => encodeR3 0x17 ra rb rd
  | .jmp r => encodeR1 0x18 r
  | .jmpf r => encodeR1 0x19 r
  | .jmpb r => encodeR1 0x1A r
  | .jeq a b => encodeR2 0x1B a b
  | .jne a b => encodeR2 0x1C a b
  | .push r => encodeR1 0x1D r
  | .spush r => encodeR1 0x1E r
  | .pop r => encodeR1 0x1F r
  | .spop r => encodeR1 0x20 r
  | .read addr dst => encodeR2 0x21 addr dst
  | .write src addr => encodeR2 0x22 src addr
  | .malloc size dst => encodeR2 0x23 size dst
  | .free ptr => encodeR1 0x24 ptr
  | .ftoi src dst => encodeR2 0x25 src dst
  | .itof src dst => encodeR2 0x26 src dst
  | .i32 src dst => encodeR2 0x27 src dst
  | .f32 src dst => encodeR2 0x28 src dst
  | .hlt => encodeR1 0x29 0x00
  | .print r => encodeR1 0x2A r
  | .mov src dst => encodeR2 0x2B src dst
  | .sread b1 b2 => encodeR2 0x2C b1 b2
  | .swrite b1 b2 => encodeR2 0x2D b1 b2

/-- The bytes of an instruction whose bits are `w`, as spec/opcode_table.json numbers them: byte `k` is
bits `8k+7..8k` (R81). Bits at and above `nbits` are 0, up to the longest instruction, 8 bytes. -/
def tableBytes (nbits w : Nat) : List Byte :=
  (List.range 8).map fun k => BitVec.ofNat 8 (w % 2 ^ nbits / 2 ^ (8 * k))

/-- The instruction the decoder reads from an opcode-table word, `none` where it refuses. -/
def decodeTableWord (nbits w : Nat) : Option Instr :=
  match decode (tableBytes nbits w) with
  | .instr i => some i
  | .endOfProgram | .illegalOpcode | .truncated => none

end Sys2Proof
end

