-- ==== Sys2Proof/Machine/Fetch.lean ====
section
/-! DEFINITION. Instruction fetch (spec/30_encoding.md R97, spec/20_memory.md R50): what stands at pc, what
a fetch that yields no instruction does, and where withFetchWord puts an instruction. -/

namespace Sys2Proof.Machine

/-- The program's bytes from pc to the end; none when pc is at or past the end. -/
def State.bytesAtPc (s : State) : List Byte := s.prog.drop s.pc.toNat

/-- The instruction at pc, or why there is none (R92, R97). -/
def State.fetch (s : State) : Decoded := decode s.bytesAtPc

/-- The implicit end-of-program halt: Success, pc unchanged (R97). -/
def State.endOfProgram (s : State) : State := s.haltSuccess

/-- The state with `bytes` standing at pc in the program, the bytes around them kept, and zero bytes
where the program did not reach that far. -/
def State.placeAtPc (s : State) (bytes : List Byte) : State :=
  { s with
    prog :=
      s.prog.take s.pc.toNat ++ List.replicate (s.pc.toNat - s.prog.length) 0 ++ bytes ++
        s.prog.drop (s.pc.toNat + bytes.length) }

/-- STATUS takes Running (R273). -/
def State.setRunning (s : State) : State := { s with engine := .running }

end Sys2Proof.Machine
end

