-- ==== Sys2Proof/Machine/Step.lean ====
section
/-! DEFINITION. One step of the engine (spec/30_encoding.md R97). -/

namespace Sys2Proof.Machine

/-- One step (R97, the order of checks of R245): outside Running no step is performed and nothing changes
(R274); at or past the end of the program the engine halts with Success; an opcode byte 46 to 255 and a
truncated instruction raise their faults; an instruction runs. -/
def step (s : State) : Host.Outcome State Fault Refusal :=
  match s.engine with
  | .idle | .success | .fault _ => .next s
  | .running =>
    match s.fetch with
    | .endOfProgram => .next s.endOfProgram
    | .illegalOpcode => .next (s.raise .illegalOpcode)
    | .truncated => .next (s.raise .truncatedInstruction)
    | .instr i => exec i s

/-- `s` with the opcode-table word `w` standing where the next step fetches, and the engine Running, so
that the next step runs it (log 9). -/
def State.withFetchWord (s : State) (nbits w : Nat) : State :=
  (s.placeAtPc (tableBytes nbits w)).setRunning

end Sys2Proof.Machine
end

