-- ==== Sys2Proof/Machine/HostPort.lean ====
section
/-! DEFINITION. The host interface (spec/70_reset_and_hazards.md R270 to R277): the commands RESET,
LOAD_PROGRAM and RUN, and the host's observations. The host acts between steps (log 10). -/

namespace Sys2Proof.Machine

/-- RESET (R271): every state to its reset value. What was emitted is not retracted (D36); the parameters
are fixed; the model's draw counter goes on, so that later draws are fresh (log 4). -/
def State.hostReset (s : State) : State :=
  { State.resetWith s.cfg with output := s.output, nanDraws := s.nanDraws }

/-- LOAD_PROGRAM (R272): the program replaced, registers and pc 0, STATUS Idle; stack, sp, heap and segment
table kept (R277); nothing is validated (D34). -/
def State.hostLoad (s : State) (bytes : List Byte) : State :=
  { s with prog := bytes, regs := [], pc := 0, engine := .idle }

/-- RUN (R273): STATUS Running, nothing else changes; pc keeps its value. -/
def State.hostRun (s : State) : State := s.setRunning

/-- The host's commands (R270). -/
inductive HostCmd where
  | reset
  | loadProgram (bytes : List Byte)
  | run
  deriving DecidableEq, Repr

/-- A host command: RESET at any time, LOAD_PROGRAM and RUN only outside Running (R270). -/
def hostCommand (c : HostCmd) (s : State) : Host.Outcome State Fault Refusal :=
  match c with
  | .reset => .next s.hostReset
  | .loadProgram bytes =>
    if s.engine = .running then .refused .hostCommandWhileRunning
    else if 2 ^ 32 ≤ bytes.length then .refused .programTooLong
    else .next (s.hostLoad bytes)
  | .run =>
    if s.engine = .running then .refused .hostCommandWhileRunning else .next s.hostRun

/-- What happens next: a step of the engine, or a host command between two steps. -/
inductive Event where
  | step
  | command (c : HostCmd)
  deriving DecidableEq, Repr

/-- One event. -/
def Event.happen (e : Event) (s : State) : Host.Outcome State Fault Refusal :=
  match e with
  | .step => Sys2Proof.Machine.step s
  | .command c => hostCommand c s

/-- The CORE under its host: the events one after another, ending at the first refusal or fault. -/
def drive (events : List Event) (s : State) : Host.Outcome State Fault Refusal :=
  match events with
  | [] => .next s
  | e :: rest =>
    match e.happen s with
    | .next t => drive rest t
    | .fault r => .fault r
    | .refused r => .refused r

/-- What the host may read as a word (R270, D32; the bytes of P by R243). The segment table is read by
`hostSegments`, the output by `hostOutput`. -/
inductive HostRead where
  | status
  | reg (i : Nat)
  | pc
  | sp
  | stack (k : Nat)
  | heap (k : Nat)
  | progByte (a : Nat)
  | progLen
  deriving DecidableEq, Repr

/-- A read of an array element that exists when `ok` holds. -/
def hostElement (ok : Bool) (v : Word) : Host.Outcome Word Fault Refusal :=
  if ok then .next v else .fault .hostReadOutOfRange

/-- A read that answers only outside Running. -/
def hostQuiet {α : Type} (s : State) (r : Host.Outcome α Fault Refusal) : Host.Outcome α Fault Refusal :=
  if s.engine = .running then .refused .hostReadWhileRunning else r

/-- An observation of the host: STATUS at any time, the rest only outside Running (R270). -/
def hostRead (q : HostRead) (s : State) : Host.Outcome Word Fault Refusal :=
  match q with
  | .status => .next s.statusWord
  | .reg i => hostQuiet s (hostElement (decide (i < s.cfg.nreg)) (s.regs.read i))
  | .pc => hostQuiet s (.next s.pc)
  | .sp => hostQuiet s (.next (BitVec.ofNat 32 s.sp))
  | .stack k => hostQuiet s (hostElement (decide (k < s.cfg.stackN)) (s.slot k))
  | .heap k => hostQuiet s (hostElement (decide (k < s.cfg.heapH)) (s.heap.read k))
  | .progByte a => hostQuiet s (hostElement (decide (a < s.progLen)) ((s.prog.getD a 0).setWidth 32))
  | .progLen => hostQuiet s (.next (BitVec.ofNat 32 s.progLen))

/-- The host's read of the segment table: its entries in order, `cnt` being their number (R33). It is
architectural state (R40), so D32 lets the host read it, outside Running only. -/
def hostSegments (s : State) : Host.Outcome (List Segment) Fault Refusal :=
  hostQuiet s (.next s.segs)

/-- The output stream, which the host consumes at any time (R252, R270). -/
def hostOutput (s : State) : List Word := s.output

end Sys2Proof.Machine
end

