-- ==== Sys2Proof/Safety.lean ====
section
/-! DEFINITION. The terms in which claims speak of a good state and of what an instruction leaves alone. -/

namespace Sys2Proof.Machine

/-- The segment table's invariants (spec/10_state.md R34), for an arena of `heapH` words. -/
structure SegmentsOk (heapH : Nat) (segs : List Segment) : Prop where
  /-- (1) The last entry is the sentinel. -/
  sentinel : segs.getLast? = some ⟨heapH - 1, 0⟩
  /-- (2) Ascending bases, no overlap. -/
  ordered : segs.Pairwise fun g h => g.base ≤ h.base ∧ g.base + g.len ≤ h.base
  /-- (3) Every live entry lies below the sentinel. -/
  live : ∀ g ∈ segs.dropLast, g.base + g.len ≤ heapH - 1 ∧ g.base < heapH - 1

/-- The invariant of the machine: the parameters meet R7's constraints, every memory is in canonical form
and holds nothing outside its array, sp is in [0, STACK_N] (R29), the segment table meets R34 and its
capacity (R33), and the program's length is below 2^32 (R7 `L`). -/
structure Inv (s : State) : Prop where
  cfg_valid : s.cfg.valid = true
  regs_wf : s.regs.wf = true
  regs_below : s.regs.below s.cfg.nreg = true
  stack_wf : s.stack.wf = true
  stack_below : s.stack.below s.cfg.stackN = true
  heap_wf : s.heap.wf = true
  heap_below : s.heap.below s.cfg.heapH = true
  sp_le : s.sp ≤ s.cfg.stackN
  segs_ok : SegmentsOk s.cfg.heapH s.segs
  segs_cap : s.segs.length ≤ s.cfg.segCap
  prog_len : s.progLen < 2 ^ 32

/-- Everything but the registers, the pc and the draw counter is as before: parameters, program, sp,
segment table, STATUS, output, every stack slot, every arena word, and every word of the unified space. -/
structure RestKept (s t : State) : Prop where
  cfg : t.cfg = s.cfg
  prog : t.prog = s.prog
  sp : t.sp = s.sp
  segs : t.segs = s.segs
  engine : t.engine = s.engine
  output : t.output = s.output
  stack : t.stack = s.stack
  heap : t.heap = s.heap
  memory : ∀ a, t.memRead a = s.memRead a

/-- Every register other than `rd` is as before. -/
def OthersKept (s t : State) (rd : RegField) : Prop :=
  ∀ r : RegField, r ≠ rd → t.reg r = s.reg r

/-- The instruction of `width` bytes has its one effect on `rd`, which takes `v`; pc goes to npc. -/
structure RegisterStep (s t : State) (rd : RegField) (v : Word) (width : Nat) : Prop where
  result : t.reg rd = v
  others : OthersKept s t rd
  pc : t.pc = s.pc + BitVec.ofNat 32 width
  draws : t.nanDraws = s.nanDraws
  rest : RestKept s t

/-- The fault of kind `k` is taken and nothing but STATUS changes: pc stays at the faulting instruction
(R240, R242, R243). -/
structure FaultStep (s t : State) (k : FaultKind) : Prop where
  engine : t.engine = .fault k
  status : t.statusWord = BitVec.ofNat 32 (3 + 16 * k.code)
  kept : { t with engine := s.engine } = s

/-- A quiet NaN (R9): exponent 0xFF, a nonzero fraction, bit 22 set. -/
def IsQuietNaN (v : Word) : Prop := v &&& 0x7FC00000 = 0x7FC00000

/-- A block of `n` words from base `b` lies below the arena's last index and between two recorded entries:
every live entry lies wholly after it or wholly before it (spec/20_memory.md R65, R66, R69). -/
structure Fits (heapH : Nat) (segs : List Segment) (b n : Nat) : Prop where
  below : b + n ≤ heapH - 1
  base_below : b < heapH - 1
  apart : ∀ g ∈ segs.dropLast, b + n ≤ g.base ∨ g.base + g.len ≤ b

/-- The one fault kind an instruction's own rule can raise (spec/60_exceptions.md R245 item 5). -/
def executeFaultOf : Instr → Option FaultKind
  | .push _ | .spush _ => some .stackOverflow
  | .pop _ | .spop _ => some .stackUnderflow
  | .malloc _ _ => some .outOfMemory
  | .div _ _ _ | .mod _ _ _ => some .divideByZero
  | .free _ => some .invalidFree
  | .read _ _ | .write _ _ => some .badAddress
  | .jmpf _ | .jmpb _ => some .badJumpTarget
  | .sread _ _ | .swrite _ _ => some .unimplementedOpcode
  | .load _ _ | .inc _ | .dec _ | .add _ _ _ | .sub _ _ _ | .mul _ _ _ | .fadd _ _ _ | .fsub _ _ _
  | .fmul _ _ _ | .fdiv _ _ _ | .eq _ _ _ | .ne _ _ _ | .gt _ _ _ | .lt _ _ _ | .gtq _ _ _ | .ltq _ _ _
  | .feq _ _ _ | .fne _ _ _ | .fgt _ _ _ | .flt _ _ _ | .fgtq _ _ _ | .fltq _ _ _ | .jmp _ | .jeq _ _
  | .jne _ _ | .ftoi _ _ | .itof _ _ | .i32 _ _ | .f32 _ _ | .hlt | .print _ | .mov _ _ => none

/-- The rational value of a finite datum. -/
def Datum.toRat : Datum → Option ℚ
  | .nan | .infinite _ => none
  | .finite neg mag => some ((signedMag neg mag : ℚ) / 2 ^ 149)

/-- The place of a datum in IEEE order, in units of 2^-149, the infinities at plus and minus 2^128, beyond
every finite binary32 datum; none for a NaN. -/
def Datum.rank : Datum → Option Int
  | .nan => none
  | .infinite neg => some (if neg then -(2 ^ 128 * unitsPerOne) else 2 ^ 128 * unitsPerOne)
  | .finite neg mag => some (signedMag neg mag)

end Sys2Proof.Machine
end

