-- ==== Sys2Proof/Certificates/Slice0/Obligations.lean ====
section
/-! DEFINITION. The statements about carpet CORE, one `def Obligations.<Name> : Prop` each. Every one holds
for all parameters of spec/00_scope.md R7, since a state carries its own. -/

open Sys2Proof Sys2Proof.Machine

/-! ### Encoding and decoding -/

/-- R81, R82, R86: whatever bytes follow it, an encoded instruction decodes to itself, with every operand
at every value a byte or a word admits. -/
def Obligations.DecodeOfEncodeIsTheInstruction : Prop :=
  ∀ (i : Instr) (tail : List Byte), decode (encode i ++ tail) = .instr i

/-- R83, R87, R89, R90, R92: what the decoder answers is settled by the first byte and the length. -/
def Obligations.DecoderOutcomesFollowOpcodeAndLength : Prop :=
  decode [] = .endOfProgram ∧
    ∀ (op : Byte) (rest : List Byte),
      (46 ≤ op.toNat → decode (op :: rest) = .illegalOpcode) ∧
        (op.toNat < 46 → rest.length + 1 < (if op = 0 then 8 else 4) → decode (op :: rest) = .truncated) ∧
        (op.toNat < 46 → (if op = 0 then 8 else 4) ≤ rest.length + 1 →
          ∃ i, decode (op :: rest) = .instr i ∧ (encode i).head? = some op ∧
            i.width = if op = 0 then 8 else 4)

/-- R85: padding is written as zero, consumed as part of the width, and no value of it changes what is
decoded: LOAD's two bytes, the last two of format R1, the last one of format R2. -/
def Obligations.PaddingBytesAreIgnored : Prop :=
  (∀ rd i0 i1 i2 i3 : Byte, ∃ i : Instr, i.width = 8 ∧ (encode i).drop 6 = [0, 0] ∧
      ∀ (p q : Byte) (tail : List Byte), decode ([0x00, rd, i0, i1, i2, i3, p, q] ++ tail) = .instr i) ∧
    (∀ op r : Byte, op ∈ ([1, 2, 24, 25, 26, 29, 30, 31, 32, 36, 41, 42] : List Byte) →
      ∃ i : Instr, i.width = 4 ∧ (encode i).drop 2 = [0, 0] ∧
        ∀ (p q : Byte) (tail : List Byte), decode ([op, r, p, q] ++ tail) = .instr i) ∧
    (∀ op r1 r2 : Byte, op ∈ ([27, 28, 33, 34, 35, 37, 38, 39, 40, 43, 44, 45] : List Byte) →
      ∃ i : Instr, i.width = 4 ∧ (encode i).drop 3 = [0] ∧
        ∀ (p : Byte) (tail : List Byte), decode ([op, r1, r2, p] ++ tail) = .instr i)

/-- One word of each family, written out from the spec's examples, decodes to its instruction. -/
def Obligations.ExampleWordsDecode : Prop :=
  decode [0x00, 0x00, 0x05, 0x00, 0x00, 0x00, 0x00, 0x00] = .instr (.load 0 5) ∧
    decode [0x03, 0x00, 0x01, 0x02] = .instr (.add 0 1 2) ∧
    decode [0x0B, 0x00, 0x01, 0x02] = .instr (.fdiv 0 1 2) ∧
    decode [0x15, 0x00, 0x01, 0x02] = .instr (.flt 0 1 2) ∧
    decode [0x1B, 0x00, 0x03, 0x00] = .instr (.jeq 0 3) ∧
    decode [0x1F, 0x01, 0x00, 0x00] = .instr (.pop 1) ∧
    decode [0x22, 0x02, 0x01, 0x00] = .instr (.write 2 1) ∧
    decode [0x24, 0x01, 0x00, 0x00] = .instr (.free 1) ∧
    decode [0x25, 0x02, 0x03, 0x00] = .instr (.ftoi 2 3) ∧
    decode [0x2B, 0x00, 0x07, 0x00] = .instr (.mov 0 7)

/-! ### The step -/

/-- R97: a step of a running engine whose bytes at pc decode to `i` is `exec i`, nothing added. -/
def Obligations.StepRunsTheDecodedInstruction : Prop :=
  ∀ (s : State) (i : Instr), s.engine = .running → decode (s.prog.drop s.pc.toNat) = .instr i →
    step s = exec i s

/-- R274: where STATUS.STATE is not 1 (Running), a step changes nothing. -/
def Obligations.NoStepOutsideRunning : Prop :=
  ∀ s : State, s.statusWord.extractLsb' 0 2 ≠ 1 → step s = .next s

/-- R97, R245 item 1: at or past the end of the program a running engine halts with Success, pc and all
else unchanged. -/
def Obligations.EndOfProgramHaltsWithSuccess : Prop :=
  ∀ s : State, s.engine = .running → s.progLen ≤ s.pc.toNat →
    ∃ t, step s = .next t ∧ t.statusWord = 2 ∧ { t with engine := s.engine } = s

/-- R87: an opcode byte 46 to 255 raises IllegalOpcode, whatever follows it, and changes STATUS alone. -/
def Obligations.IllegalOpcodeFaults : Prop :=
  ∀ (s : State) (op : Byte), s.engine = .running → s.prog[s.pc.toNat]? = some op → 46 ≤ op.toNat →
    ∃ t, step s = .next t ∧ FaultStep s t .illegalOpcode

/-- R90: an instruction that runs past the end of the buffer, padding counted, raises
TruncatedInstruction. -/
def Obligations.TruncatedInstructionFaults : Prop :=
  ∀ (s : State) (op : Byte), s.engine = .running → s.prog[s.pc.toNat]? = some op → op.toNat < 46 →
    s.progLen < s.pc.toNat + (if op = 0 then 8 else 4) →
    ∃ t, step s = .next t ∧ FaultStep s t .truncatedInstruction

/-- R22, R84: an instruction with a used register field at or above NREG raises BadRegister and changes
STATUS alone; one without never raises it. -/
def Obligations.BadRegisterExactlyOnBadFields : Prop :=
  ∀ (i : Instr) (s : State),
    ((∃ f ∈ i.regFields, s.cfg.nreg ≤ f.toNat) → ∃ t, exec i s = .next t ∧ FaultStep s t .badRegister) ∧
      ((∀ f ∈ i.regFields, f.toNat < s.cfg.nreg) → s.engine = .running →
        ∃ t, exec i s = .next t ∧ t.engine ≠ .fault .badRegister)

/-- R92, R276: every step from every state answers a next state: nothing is refused and no step ends in a
fault of the model. -/
def Obligations.EveryStepAnswersNext : Prop :=
  ∀ s : State, ∃ t, step s = .next t

/-- R242: a step that ends in a fault changed nothing but STATUS. -/
def Obligations.FaultsArePrecise : Prop :=
  ∀ (s t : State) (k : FaultKind), s.engine = .running → step s = .next t → t.engine = .fault k →
    FaultStep s t k

/-- R245, R241: an instruction raises BadRegister on a bad field and otherwise only the one kind its own
rule names; a step raises besides only IllegalOpcode and TruncatedInstruction, at their opcodes. -/
def Obligations.FaultKindsByInstruction : Prop :=
  ∀ (s t : State) (k : FaultKind), s.engine = .running → step s = .next t → t.engine = .fault k →
    (s.fetch = .illegalOpcode ∧ k = .illegalOpcode) ∨
      (s.fetch = .truncated ∧ k = .truncatedInstruction) ∨
      ∃ i, s.fetch = .instr i ∧
        ((i.wellFormed s.cfg = false ∧ k = .badRegister) ∨
          (i.wellFormed s.cfg = true ∧ executeFaultOf i = some k))

/-- R278: a run ends in Success only by HLT, or at a fetch at or past the end of the program. -/
def Obligations.SuccessOnlyByHaltOrEndOfProgram : Prop :=
  ∀ s t : State, s.engine = .running → step s = .next t → t.engine = .success →
    s.progLen ≤ s.pc.toNat ∨ s.fetch = .instr .hlt

/-- R24, R62, R7: no step changes the program or the parameters. -/
def Obligations.StepKeepsProgramAndParameters : Prop :=
  ∀ s t : State, step s = .next t → t.prog = s.prog ∧ t.cfg = s.cfg

/-- R26: where an instruction is fetched, its last byte lies inside the program, so npc does not wrap. -/
def Obligations.NextPcNeverWraps : Prop :=
  ∀ (s : State) (i : Instr), s.progLen < 2 ^ 32 → s.fetch = .instr i →
    s.pc.toNat + i.width ≤ s.progLen ∧
      (s.pc + BitVec.ofNat 32 i.width).toNat = s.pc.toNat + i.width

/-- R29, R33, R39, R53, R54, R59: which instructions can change which state. sp moves by the four stack
instructions alone; the segment table by MALLOC and FREE; the output by PRINT; the arena by WRITE; the
stack's slots by PUSH and WRITE. -/
def Obligations.OnlyTheirInstructionsChangeState : Prop :=
  ∀ (i : Instr) (s t : State), exec i s = .next t →
    (t.sp ≠ s.sp → ∃ r, i = .push r ∨ i = .spush r ∨ i = .pop r ∨ i = .spop r) ∧
      (t.segs ≠ s.segs → (∃ a b, i = .malloc a b) ∨ ∃ r, i = .free r) ∧
      (t.output ≠ s.output → ∃ r, i = .print r) ∧
      (t.heap ≠ s.heap → ∃ a b, i = .write a b) ∧
      (t.stack ≠ s.stack → (∃ a b, i = .write a b) ∨ ∃ r, i = .push r)

/-! ### The invariant -/

/-- R271, R35, R34: the state after RESET meets the invariant, for every valid choice of parameters, and
for this hardware's. -/
def Obligations.ResetMeetsTheInvariant : Prop :=
  (∀ c : Config, c.valid = true → Inv (State.resetWith c)) ∧ Inv State.reset

/-- R22, R29, R33, R34, R24: every step keeps the invariant, from every state that meets it. -/
def Obligations.EveryStepKeepsTheInvariant : Prop :=
  ∀ s t : State, Inv s → step s = .next t → Inv t

/-- R270, R271, R272, R273: every host command that is answered keeps the invariant. -/
def Obligations.HostCommandsKeepTheInvariant : Prop :=
  ∀ (c : HostCmd) (s t : State), Inv s → hostCommand c s = .next t → Inv t

/-- The model's representation (log 3): two memories in canonical form that read alike at every index are
the same data. -/
def Obligations.CanonicalMemoriesReadingAlikeAreEqual : Prop :=
  ∀ m n : Memory, m.wf = true → n.wf = true → (∀ k, m.read k = n.read k) → m = n

/-- R52, R60: a word of the unified space reads as what was last written to it, and a write changes no
other word of it. -/
def Obligations.UnifiedReadAfterWrite : Prop :=
  ∀ (s t : State) (a : Nat) (v : Word), s.memWrite a v = some t →
    t.memRead a = some v ∧ ∀ b, b ≠ a → t.memRead b = s.memRead b

/-! ### STATUS, reset and the host -/

/-- R31, R241: the layout of STATUS: STATE in 1:0, KIND in 7:4 (the code of the fault when STATE is 3, else
0), the other bits 0; and R241's table, the code of each kind. -/
def Obligations.StatusRegisterLayout : Prop :=
  (∀ s : State, s.statusWord.extractLsb' 2 2 = 0 ∧ s.statusWord.extractLsb' 8 24 = 0 ∧
      (s.engine = .idle → s.statusWord = 0) ∧ (s.engine = .running → s.statusWord = 1) ∧
      (s.engine = .success → s.statusWord = 2) ∧
      ∀ k, s.engine = .fault k → s.statusWord.extractLsb' 0 2 = 3 ∧
        (s.statusWord.extractLsb' 4 4).toNat = k.code) ∧
    FaultKind.stackOverflow.code = 1 ∧ FaultKind.stackUnderflow.code = 2 ∧ FaultKind.outOfMemory.code = 3 ∧
    FaultKind.divideByZero.code = 4 ∧ FaultKind.invalidFree.code = 5 ∧
    FaultKind.truncatedInstruction.code = 6 ∧ FaultKind.illegalOpcode.code = 7 ∧
    FaultKind.badRegister.code = 8 ∧ FaultKind.badAddress.code = 9 ∧ FaultKind.badJumpTarget.code = 10 ∧
    FaultKind.unimplementedOpcode.code = 11 ∧ ∀ j k : FaultKind, j.code = k.code → j = k

/-- R271: RESET puts every piece of state at its reset value, in every state, Running included, and
retracts no output; the state after power-on has the same values and no output. -/
def Obligations.ResetSetsEveryReset : Prop :=
  let AtReset (t : State) : Prop :=
    (∀ i, t.regs.read i = 0) ∧ t.pc = 0 ∧ t.prog = [] ∧ t.progLen = 0 ∧ t.sp = 0 ∧ (∀ k, t.slot k = 0) ∧
      (∀ k, t.heap.read k = 0) ∧ t.segs = [⟨t.cfg.heapH - 1, 0⟩] ∧ t.statusWord = 0
  AtReset State.reset ∧ State.reset.output = [] ∧ State.reset.cfg = Config.default ∧
    ∀ s : State, ∃ t, hostCommand .reset s = .next t ∧ AtReset t ∧ t.output = s.output ∧ t.cfg = s.cfg

/-- R272: LOAD_PROGRAM outside Running replaces the program, zeroes the registers, pc and STATUS, and
leaves stack, sp, heap, segment table and output untouched. -/
def Obligations.LoadProgramKeepsStackAndHeap : Prop :=
  ∀ (s : State) (bytes : List Byte), s.engine ≠ .running → bytes.length < 2 ^ 32 →
    ∃ t, hostCommand (.loadProgram bytes) s = .next t ∧ t.prog = bytes ∧ t.progLen = bytes.length ∧
      (∀ i, t.regs.read i = 0) ∧ t.pc = 0 ∧ t.statusWord = 0 ∧ t.sp = s.sp ∧ t.stack = s.stack ∧
      t.heap = s.heap ∧ t.segs = s.segs ∧ t.output = s.output ∧ t.cfg = s.cfg

/-- R270, R273: RUN outside Running sets STATUS to Running and changes nothing else; LOAD_PROGRAM and RUN
while Running are refused, since those moves do not exist. -/
def Obligations.RunSetsRunningAndNothingElse : Prop :=
  (∀ s : State, s.engine ≠ .running →
      ∃ t, hostCommand .run s = .next t ∧ t.statusWord = 1 ∧ { t with engine := s.engine } = s) ∧
    ∀ s : State, s.engine = .running → hostCommand .run s = .refused .hostCommandWhileRunning ∧
      ∀ bytes, hostCommand (.loadProgram bytes) s = .refused .hostCommandWhileRunning

/-- R270, D32: the host reads STATUS and the output at any time, and all other architectural state (every
register, pc, sp, stack slot, arena word, the segment table, L and the bytes of P) outside Running; while
Running those reads are refused. -/
def Obligations.HostReadsTheFinalState : Prop :=
  ∀ s : State, hostRead .status s = .next s.statusWord ∧ hostOutput s = s.output ∧
    (s.engine ≠ .running →
      (∀ r : RegField, r.toNat < s.cfg.nreg → hostRead (.reg r.toNat) s = .next (s.reg r)) ∧
        hostRead .pc s = .next s.pc ∧
        (s.sp < 2 ^ 32 → ∃ w, hostRead .sp s = .next w ∧ w.toNat = s.sp) ∧
        (∀ k, k < s.cfg.stackN → hostRead (.stack k) s = .next (s.slot k)) ∧
        (∀ k, k < s.cfg.heapH → hostRead (.heap k) s = .next (s.heap.read k)) ∧
        hostSegments s = .next s.segs ∧
        (s.progLen < 2 ^ 32 → ∃ w, hostRead .progLen s = .next w ∧ w.toNat = s.progLen) ∧
        ∀ (a : Nat) (b : Byte), s.prog[a]? = some b →
          ∃ w, hostRead (.progByte a) s = .next w ∧ w.toNat = b.toNat) ∧
    (s.engine = .running →
      (∀ q, q ≠ .status → hostRead q s = .refused .hostReadWhileRunning) ∧
        hostSegments s = .refused .hostReadWhileRunning)

/-- R248: RUN after a fault re-executes the instruction at pc, and it faults again the same way. -/
def Obligations.RunAfterFaultFaultsAgain : Prop :=
  ∀ (s t : State) (k : FaultKind), s.engine = .running → step s = .next t → t.engine = .fault k →
    ∃ u, hostCommand .run t = .next u ∧ step u = .next t

/-! ### LOAD and integer arithmetic -/

/-- R110, R86: LOAD writes the little-endian literal to rd, raw, and goes on 8 bytes later. -/
def Obligations.LoadWritesTheLiteral : Prop :=
  (∀ (rd i0 i1 i2 i3 p q : Byte) (tail : List Byte),
      ∃ imm : Word, imm.toNat = i0.toNat + 2 ^ 8 * i1.toNat + 2 ^ 16 * i2.toNat + 2 ^ 24 * i3.toNat ∧
        decode ([0x00, rd, i0, i1, i2, i3, p, q] ++ tail) = .instr (.load rd imm)) ∧
    ∀ (s : State) (rd : RegField) (imm : Word), s.fieldsOk [rd] = true →
      ∃ t, exec (.load rd imm) s = .next t ∧ RegisterStep s t rd imm 8

/-- R121, R122: INC and DEC add and subtract 1 in place, wrapping; no fault, no other effect. -/
def Obligations.IncrementAndDecrement : Prop :=
  (∀ (r p q : Byte) (tail : List Byte), decode ([0x01, r, p, q] ++ tail) = .instr (.inc r) ∧
      decode ([0x02, r, p, q] ++ tail) = .instr (.dec r)) ∧
    ∀ (s : State) (r : RegField), s.fieldsOk [r] = true →
      (∃ t, exec (.inc r) s = .next t ∧ RegisterStep s t r (BitVec.ofInt 32 ((s.reg r).toInt + 1)) 4) ∧
        ∃ t, exec (.dec r) s = .next t ∧ RegisterStep s t r (BitVec.ofInt 32 ((s.reg r).toInt - 1)) 4

/-- R123, R124, R125: ADD, SUB and MUL write the exact signed result wrapped to 32 bits; rd may be a
source. -/
def Obligations.AddSubtractMultiply : Prop :=
  (∀ (ra rb rd : Byte) (tail : List Byte), decode ([0x03, ra, rb, rd] ++ tail) = .instr (.add ra rb rd) ∧
      decode ([0x04, ra, rb, rd] ++ tail) = .instr (.sub ra rb rd) ∧
      decode ([0x05, ra, rb, rd] ++ tail) = .instr (.mul ra rb rd)) ∧
    ∀ (s : State) (ra rb rd : RegField), s.fieldsOk [ra, rb, rd] = true →
      (∃ t, exec (.add ra rb rd) s = .next t ∧
          RegisterStep s t rd (BitVec.ofInt 32 ((s.reg ra).toInt + (s.reg rb).toInt)) 4) ∧
        (∃ t, exec (.sub ra rb rd) s = .next t ∧
          RegisterStep s t rd (BitVec.ofInt 32 ((s.reg ra).toInt - (s.reg rb).toInt)) 4) ∧
        ∃ t, exec (.mul ra rb rd) s = .next t ∧
          RegisterStep s t rd (BitVec.ofInt 32 ((s.reg ra).toInt * (s.reg rb).toInt)) 4

/-- R126, R127: DIV and MOD truncate toward zero and wrap; a zero divisor raises DivideByZero and writes
nothing. -/
def Obligations.DivideAndRemainder : Prop :=
  (∀ (ra rb rd : Byte) (tail : List Byte), decode ([0x06, ra, rb, rd] ++ tail) = .instr (.div ra rb rd) ∧
      decode ([0x07, ra, rb, rd] ++ tail) = .instr (.mod ra rb rd)) ∧
    ∀ (s : State) (ra rb rd : RegField), s.fieldsOk [ra, rb, rd] = true →
      (s.reg rb ≠ 0 →
          (∃ t, exec (.div ra rb rd) s = .next t ∧
              RegisterStep s t rd (BitVec.ofInt 32 (Int.tdiv (s.reg ra).toInt (s.reg rb).toInt)) 4) ∧
            ∃ t, exec (.mod ra rb rd) s = .next t ∧
              RegisterStep s t rd (BitVec.ofInt 32 (Int.tmod (s.reg ra).toInt (s.reg rb).toInt)) 4) ∧
        (s.reg rb = 0 →
          (∃ t, exec (.div ra rb rd) s = .next t ∧ FaultStep s t .divideByZero) ∧
            ∃ t, exec (.mod ra rb rd) s = .next t ∧ FaultStep s t .divideByZero)

/-- R120: the results of ADD, SUB, MUL, INC and DEC are the same bit patterns under the unsigned reading:
the unsigned result modulo 2^32. -/
def Obligations.WrappedResultsAgreeWithUnsigned : Prop :=
  ∀ (s t : State) (ra rb rd : RegField), s.fieldsOk [ra, rb, rd] = true →
    (exec (.add ra rb rd) s = .next t →
        (t.reg rd).toNat = ((s.reg ra).toNat + (s.reg rb).toNat) % 2 ^ 32) ∧
      (exec (.sub ra rb rd) s = .next t →
        (t.reg rd).toNat = (2 ^ 32 + (s.reg ra).toNat - (s.reg rb).toNat) % 2 ^ 32) ∧
      (exec (.mul ra rb rd) s = .next t →
        (t.reg rd).toNat = ((s.reg ra).toNat * (s.reg rb).toNat) % 2 ^ 32) ∧
      (exec (.inc rd) s = .next t → (t.reg rd).toNat = ((s.reg rd).toNat + 1) % 2 ^ 32) ∧
      (exec (.dec rd) s = .next t → (t.reg rd).toNat = (2 ^ 32 + (s.reg rd).toNat - 1) % 2 ^ 32)

/-- R127: quotient times divisor plus remainder is the dividend modulo 2^32, the -2^31 / -1 case
included. -/
def Obligations.QuotientAndRemainderLaw : Prop :=
  ∀ (s t u : State) (ra rb rd : RegField), s.fieldsOk [ra, rb, rd] = true → s.reg rb ≠ 0 →
    exec (.div ra rb rd) s = .next t → exec (.mod ra rb rd) s = .next u →
    t.reg rd * s.reg rb + u.reg rd = s.reg ra

/-! ### Floating point -/

/-- R141 to R144, R140 items 5 and 7: FADD, FSUB, FMUL and FDIV always complete: they write the pattern of
the IEEE operation, or, where it is a NaN, some quiet NaN; nothing else changes. -/
def Obligations.FloatArithmeticCompletes : Prop :=
  (∀ (ra rb rd : Byte) (tail : List Byte), decode ([0x08, ra, rb, rd] ++ tail) = .instr (.fadd ra rb rd) ∧
      decode ([0x09, ra, rb, rd] ++ tail) = .instr (.fsub ra rb rd) ∧
      decode ([0x0A, ra, rb, rd] ++ tail) = .instr (.fmul ra rb rd) ∧
      decode ([0x0B, ra, rb, rd] ++ tail) = .instr (.fdiv ra rb rd)) ∧
    ∀ (s : State) (ra rb rd : RegField), s.fieldsOk [ra, rb, rd] = true →
      let Completes (i : Instr) (f : Datum → Datum → Option Word) : Prop :=
        ∃ t, exec i s = .next t ∧
          (∀ v, f (f32 (s.reg ra)) (f32 (s.reg rb)) = some v → RegisterStep s t rd v 4) ∧
          (f (f32 (s.reg ra)) (f32 (s.reg rb)) = none →
            IsQuietNaN (t.reg rd) ∧ OthersKept s t rd ∧ t.pc = s.pc + 4 ∧ RestKept s t)
      Completes (.fadd ra rb rd) floatAdd ∧ Completes (.fsub ra rb rd) floatSub ∧
        Completes (.fmul ra rb rd) floatMul ∧ Completes (.fdiv ra rb rd) floatDiv

/-- R140 item 1: on finite operands a nonzero exact sum, difference, product or quotient is rounded once:
the result is rne32 of that exact rational, in units of 2^-149. -/
def Obligations.FloatResultsRoundTheExactValueOnce : Prop :=
  ∀ (a b : Datum) (x y : ℚ), a.toRat = some x → b.toRat = some y →
    let RoundsTo (r : Option Word) (z : ℚ) : Prop :=
      z ≠ 0 → ∃ num den : Nat, 0 < den ∧ |z| * 2 ^ 149 = (num : ℚ) / den ∧
        r = some (rne32 (decide (z < 0)) num den)
    RoundsTo (floatAdd a b) (x + y) ∧ RoundsTo (floatSub a b) (x - y) ∧ RoundsTo (floatMul a b) (x * y) ∧
      (y ≠ 0 → RoundsTo (floatDiv a b) (x / y))

/-- R9, R140 items 1 to 3: rne32 rounds to nearest, ties to even: the pattern is a finite datum of that
sign no other finite datum of that sign is nearer than, an even pattern on a tie; from half a unit above
the largest finite datum on it is the infinity. `num / den` is in units of 2^-149, of which the largest
finite datum holds (2^24 - 1) * 2^253. -/
def Obligations.RoundingIsToNearestTiesToEven : Prop :=
  ∀ (neg : Bool) (num den : Nat), 0 < den →
    ((2 ^ 25 - 1) * 2 ^ 252 * den ≤ num → rne32 neg num den = infinityOf neg) ∧
      (num < (2 ^ 25 - 1) * 2 ^ 252 * den →
        ∃ mag, f32 (rne32 neg num den) = .finite neg mag ∧
          ∀ (w : Word) (other : Nat), f32 w = .finite neg other →
            |(num : ℤ) - mag * den| ≤ |(num : ℤ) - other * den| ∧
              (|(num : ℤ) - mag * den| = |(num : ℤ) - other * den| → other ≠ mag →
                (rne32 neg num den).toNat % 2 = 0))

/-- R140 items 4 and 5: exactly these operations give a NaN: a NaN operand, infinity minus infinity, zero
times infinity, zero over zero, infinity over infinity. -/
def Obligations.NaNExactlyOnInvalidOperations : Prop :=
  ∀ a b : Datum,
    (floatAdd a b = none ↔ a = .nan ∨ b = .nan ∨ ∃ n, a = .infinite n ∧ b = .infinite (!n)) ∧
      (floatSub a b = none ↔ a = .nan ∨ b = .nan ∨ ∃ n, a = .infinite n ∧ b = .infinite n) ∧
      (floatMul a b = none ↔ a = .nan ∨ b = .nan ∨
        (∃ n m, a = .infinite n ∧ b = .finite m 0) ∨ ∃ n m, a = .finite n 0 ∧ b = .infinite m) ∧
      (floatDiv a b = none ↔ a = .nan ∨ b = .nan ∨
        (∃ n m, a = .infinite n ∧ b = .infinite m) ∨ ∃ n m, a = .finite n 0 ∧ b = .finite m 0)

/-- R140 items 4 and 6: exact zeros, and the signs of products and quotients. Where an exact sum or
difference of finite data is 0 the result is +0, but for (-0) + (-0) and (-0) - (+0), which are -0; zero
times a finite datum and zero over a nonzero finite datum are the zero whose sign is the XOR; a nonzero
datum over zero, infinite ones included, is the infinity whose sign is the XOR, as is the sign of every
product and quotient that is no NaN. -/
def Obligations.SignedZerosAndInfinities : Prop :=
  let zero (neg : Bool) : Word := if neg then 0x80000000 else 0x00000000
  let infinity (neg : Bool) : Word := if neg then 0xFF800000 else 0x7F800000
  (∀ neg mag, floatAdd (.finite neg mag) (.finite (!neg) mag) = some (zero false) ∧
      floatSub (.finite neg mag) (.finite neg mag) = some (zero false)) ∧
    (∀ n m, floatAdd (.finite n 0) (.finite m 0) = some (zero (n && m)) ∧
      floatSub (.finite n 0) (.finite m 0) = some (zero (n && !m))) ∧
    (∀ n m mag, floatMul (.finite n 0) (.finite m mag) = some (zero (n ^^ m)) ∧
      floatMul (.finite n mag) (.finite m 0) = some (zero (n ^^ m)) ∧
      (mag ≠ 0 → floatDiv (.finite n 0) (.finite m mag) = some (zero (n ^^ m)))) ∧
    (∀ n m mag, (mag ≠ 0 → floatDiv (.finite n mag) (.finite m 0) = some (infinity (n ^^ m))) ∧
      floatDiv (.infinite n) (.finite m 0) = some (infinity (n ^^ m))) ∧
    ∀ v w p : Word, floatMul (f32 v) (f32 w) = some p ∨ floatDiv (f32 v) (f32 w) = some p →
      p.msb = (v.msb ^^ w.msb)

/-- R140 items 3 and 4: the results with an infinite operand that are no NaN. An infinity absorbs every
finite summand and an infinity of its own sign; times a nonzero datum and over a finite one it is the
infinity whose sign is the XOR; a finite datum over an infinity is the zero whose sign is the XOR. -/
def Obligations.InfiniteOperands : Prop :=
  let zero (neg : Bool) : Word := if neg then 0x80000000 else 0x00000000
  let infinity (neg : Bool) : Word := if neg then 0xFF800000 else 0x7F800000
  (∀ neg, infinityOf neg = infinity neg ∧ f32 (infinity neg) = .infinite neg) ∧
    (∀ n m mag, floatAdd (.infinite n) (.finite m mag) = some (infinity n) ∧
      floatAdd (.finite m mag) (.infinite n) = some (infinity n) ∧
      floatSub (.infinite n) (.finite m mag) = some (infinity n) ∧
      floatSub (.finite m mag) (.infinite n) = some (infinity (!n))) ∧
    (∀ n, floatAdd (.infinite n) (.infinite n) = some (infinity n) ∧
      floatSub (.infinite n) (.infinite (!n)) = some (infinity n)) ∧
    (∀ n m mag, mag ≠ 0 → floatMul (.infinite n) (.finite m mag) = some (infinity (n ^^ m)) ∧
      floatMul (.finite m mag) (.infinite n) = some (infinity (m ^^ n))) ∧
    (∀ n m, floatMul (.infinite n) (.infinite m) = some (infinity (n ^^ m))) ∧
    ∀ n m mag, floatDiv (.infinite n) (.finite m mag) = some (infinity (n ^^ m)) ∧
      floatDiv (.finite n mag) (.infinite m) = some (zero (n ^^ m))

/-! ### Comparisons -/

/-- R151 to R156, R150: the integer comparisons write 1 when the signed relation holds and 0 when not. -/
def Obligations.IntegerComparisons : Prop :=
  (∀ (ra rb rd : Byte) (tail : List Byte), decode ([0x0C, ra, rb, rd] ++ tail) = .instr (.eq ra rb rd) ∧
      decode ([0x0D, ra, rb, rd] ++ tail) = .instr (.ne ra rb rd) ∧
      decode ([0x0E, ra, rb, rd] ++ tail) = .instr (.gt ra rb rd) ∧
      decode ([0x0F, ra, rb, rd] ++ tail) = .instr (.lt ra rb rd) ∧
      decode ([0x10, ra, rb, rd] ++ tail) = .instr (.gtq ra rb rd) ∧
      decode ([0x11, ra, rb, rd] ++ tail) = .instr (.ltq ra rb rd)) ∧
    ∀ (s : State) (ra rb rd : RegField), s.fieldsOk [ra, rb, rd] = true →
      let a := (s.reg ra).toInt
      let b := (s.reg rb).toInt
      (∃ t, exec (.eq ra rb rd) s = .next t ∧ RegisterStep s t rd (if a = b then 1 else 0) 4) ∧
        (∃ t, exec (.ne ra rb rd) s = .next t ∧ RegisterStep s t rd (if a ≠ b then 1 else 0) 4) ∧
        (∃ t, exec (.gt ra rb rd) s = .next t ∧ RegisterStep s t rd (if a > b then 1 else 0) 4) ∧
        (∃ t, exec (.lt ra rb rd) s = .next t ∧ RegisterStep s t rd (if a < b then 1 else 0) 4) ∧
        (∃ t, exec (.gtq ra rb rd) s = .next t ∧ RegisterStep s t rd (if a ≥ b then 1 else 0) 4) ∧
        ∃ t, exec (.ltq ra rb rd) s = .next t ∧ RegisterStep s t rd (if a ≤ b then 1 else 0) 4

/-- R157 to R163, R150: the float comparisons write 1 when the relation holds between the operands' places
in IEEE order and 0 when not; a NaN has no place, so it makes every relation false and FNE true. -/
def Obligations.FloatComparisons : Prop :=
  (∀ (ra rb rd : Byte) (tail : List Byte), decode ([0x12, ra, rb, rd] ++ tail) = .instr (.feq ra rb rd) ∧
      decode ([0x13, ra, rb, rd] ++ tail) = .instr (.fne ra rb rd) ∧
      decode ([0x14, ra, rb, rd] ++ tail) = .instr (.fgt ra rb rd) ∧
      decode ([0x15, ra, rb, rd] ++ tail) = .instr (.flt ra rb rd) ∧
      decode ([0x16, ra, rb, rd] ++ tail) = .instr (.fgtq ra rb rd) ∧
      decode ([0x17, ra, rb, rd] ++ tail) = .instr (.fltq ra rb rd)) ∧
    ∀ (s : State) (ra rb rd : RegField), s.fieldsOk [ra, rb, rd] = true →
      let Related (rel : Int → Int → Prop) : Prop :=
        ∃ x y, (f32 (s.reg ra)).rank = some x ∧ (f32 (s.reg rb)).rank = some y ∧ rel x y
      let Writes (i : Instr) (holds : Prop) : Prop :=
        ∃ t v, exec i s = .next t ∧ RegisterStep s t rd v 4 ∧ (holds → v = 1) ∧ (¬holds → v = 0)
      Writes (.feq ra rb rd) (Related fun x y => x = y) ∧
        Writes (.fne ra rb rd) (¬Related fun x y => x = y) ∧
        Writes (.fgt ra rb rd) (Related fun x y => x > y) ∧
        Writes (.flt ra rb rd) (Related fun x y => x < y) ∧
        Writes (.fgtq ra rb rd) (Related fun x y => x ≥ y) ∧
        Writes (.fltq ra rb rd) (Related fun x y => x ≤ y)

/-! ### Jumps -/

/-- R171, R174, R175: JMP goes to the raw value of r; JEQ goes to the raw value of b when a is nonzero, JNE
when a is zero, and otherwise to npc; nothing but pc changes. -/
def Obligations.AbsoluteJumps : Prop :=
  (∀ (a b p q : Byte) (tail : List Byte), decode ([0x18, a, p, q] ++ tail) = .instr (.jmp a) ∧
      decode ([0x1B, a, b, q] ++ tail) = .instr (.jeq a b) ∧
      decode ([0x1C, a, b, q] ++ tail) = .instr (.jne a b)) ∧
    (∀ (s : State) (r : RegField), s.fieldsOk [r] = true →
      ∃ t, exec (.jmp r) s = .next t ∧ t.pc = s.reg r ∧ { t with pc := s.pc } = s) ∧
    ∀ (s : State) (a b : RegField), s.fieldsOk [a, b] = true →
      (∃ t, exec (.jeq a b) s = .next t ∧ { t with pc := s.pc } = s ∧
          t.pc = if s.reg a ≠ 0 then s.reg b else s.pc + 4) ∧
        ∃ t, exec (.jne a b) s = .next t ∧ { t with pc := s.pc } = s ∧
          t.pc = if s.reg a = 0 then s.reg b else s.pc + 4

/-- R172, R173: JMPF adds and JMPB subtracts the signed value of r to and from npc, unbounded; a target in
[0, 2^32) is taken, any other raises BadJumpTarget. -/
def Obligations.RelativeJumps : Prop :=
  (∀ (r p q : Byte) (tail : List Byte), decode ([0x19, r, p, q] ++ tail) = .instr (.jmpf r) ∧
      decode ([0x1A, r, p, q] ++ tail) = .instr (.jmpb r)) ∧
    ∀ (s : State) (r : RegField), s.fieldsOk [r] = true →
      let Goes (i : Instr) (target : Int) : Prop :=
        (0 ≤ target ∧ target < 2 ^ 32 →
          ∃ t, exec i s = .next t ∧ (t.pc.toNat : Int) = target ∧ { t with pc := s.pc } = s) ∧
        (target < 0 ∨ 2 ^ 32 ≤ target → ∃ t, exec i s = .next t ∧ FaultStep s t .badJumpTarget)
      Goes (.jmpf r) (s.pc.toNat + 4 + (s.reg r).toInt) ∧ Goes (.jmpb r) (s.pc.toNat + 4 - (s.reg r).toInt)

/-! ### The operand stack -/

/-- R190: PUSH writes S[sp] and moves sp up; with sp at the capacity it raises StackOverflow. No other slot
and no other word of the unified space changes. -/
def Obligations.PushWritesTheNextSlot : Prop :=
  (∀ (r p q : Byte) (tail : List Byte), decode ([0x1D, r, p, q] ++ tail) = .instr (.push r)) ∧
    ∀ (s : State) (r : RegField), s.fieldsOk [r] = true →
      (s.sp < s.cfg.stackN →
          ∃ t, exec (.push r) s = .next t ∧ t.slot s.sp = s.reg r ∧ t.sp = s.sp + 1 ∧ t.pc = s.pc + 4 ∧
            (∀ k, k ≠ s.sp → t.slot k = s.slot k) ∧
            (∀ a, a ≠ s.sp → t.memRead a = s.memRead a) ∧
            { t with stack := s.stack, sp := s.sp, pc := s.pc } = s) ∧
        (s.cfg.stackN ≤ s.sp → ∃ t, exec (.push r) s = .next t ∧ FaultStep s t .stackOverflow)

/-- R192: POP moves sp down and reads that slot into r, which is not cleared; with sp 0 it raises
StackUnderflow. -/
def Obligations.PopReadsTheTopSlot : Prop :=
  (∀ (r p q : Byte) (tail : List Byte), decode ([0x1F, r, p, q] ++ tail) = .instr (.pop r)) ∧
    ∀ (s : State) (r : RegField), s.fieldsOk [r] = true →
      (s.sp ≠ 0 →
          ∃ t, exec (.pop r) s = .next t ∧ t.reg r = s.slot (s.sp - 1) ∧ OthersKept s t r ∧
            t.sp = s.sp - 1 ∧ t.pc = s.pc + 4 ∧ (∀ a, t.memRead a = s.memRead a) ∧
            { t with regs := s.regs, sp := s.sp, pc := s.pc } = s) ∧
        (s.sp = 0 → ∃ t, exec (.pop r) s = .next t ∧ FaultStep s t .stackUnderflow)

/-- R191, R193: SPUSH and SPOP move sp by the unsigned value of r without wrapping and write no slot; past
the capacity SPUSH raises StackOverflow, below 0 SPOP raises StackUnderflow. -/
def Obligations.ReserveAndDiscardMoveSp : Prop :=
  (∀ (r p q : Byte) (tail : List Byte), decode ([0x1E, r, p, q] ++ tail) = .instr (.spush r) ∧
      decode ([0x20, r, p, q] ++ tail) = .instr (.spop r)) ∧
    ∀ (s : State) (r : RegField), s.fieldsOk [r] = true →
      let n := (s.reg r).toNat
      (s.sp + n ≤ s.cfg.stackN →
          ∃ t, exec (.spush r) s = .next t ∧ t.sp = s.sp + n ∧ t.pc = s.pc + 4 ∧
            (∀ a, t.memRead a = s.memRead a) ∧ { t with sp := s.sp, pc := s.pc } = s) ∧
        (s.cfg.stackN < s.sp + n → ∃ t, exec (.spush r) s = .next t ∧ FaultStep s t .stackOverflow) ∧
        (n ≤ s.sp →
          ∃ t, exec (.spop r) s = .next t ∧ t.sp + n = s.sp ∧ t.pc = s.pc + 4 ∧
            (∀ a, t.memRead a = s.memRead a) ∧ { t with sp := s.sp, pc := s.pc } = s) ∧
        (s.sp < n → ∃ t, exec (.spop r) s = .next t ∧ FaultStep s t .stackUnderflow)

/-- R192, R280: PUSH of one register and then POP into another carries the value over and restores sp. -/
def Obligations.PushThenPopCarriesTheValue : Prop :=
  ∀ (s : State) (r q : RegField), s.fieldsOk [r, q] = true → s.sp < s.cfg.stackN →
    ∃ t u, exec (.push r) s = .next t ∧ exec (.pop q) t = .next u ∧ u.reg q = s.reg r ∧ u.sp = s.sp ∧
      OthersKept s u q

/-! ### Memory access -/

/-- R201: READ loads S[a] or Hp[a - STACK_N], whatever sp and the segment table hold; an address at or
above STACK_N + HEAP_H raises BadAddress. -/
def Obligations.ReadLoadsFromTheUnifiedSpace : Prop :=
  (∀ (a d p : Byte) (tail : List Byte), decode ([0x21, a, d, p] ++ tail) = .instr (.read a d)) ∧
    ∀ (s : State) (addr dst : RegField), s.fieldsOk [addr, dst] = true →
      let a := (s.reg addr).toNat
      (a < s.cfg.stackN → ∃ t, exec (.read addr dst) s = .next t ∧ RegisterStep s t dst (s.slot a) 4) ∧
        (s.cfg.stackN ≤ a → a < s.cfg.stackN + s.cfg.heapH →
          ∃ t, exec (.read addr dst) s = .next t ∧
            RegisterStep s t dst (s.heap.read (a - s.cfg.stackN)) 4) ∧
        (s.cfg.stackN + s.cfg.heapH ≤ a →
          ∃ t, exec (.read addr dst) s = .next t ∧ FaultStep s t .badAddress)

/-- R202: WRITE stores src at the word its address register names and nowhere else, in the stack or in the
arena, without moving sp; an address at or above STACK_N + HEAP_H raises BadAddress, which is the spec's
decision D11 (log 11). -/
def Obligations.WriteStoresToTheUnifiedSpace : Prop :=
  (∀ (r a p : Byte) (tail : List Byte), decode ([0x22, r, a, p] ++ tail) = .instr (.write r a)) ∧
    ∀ (s : State) (src addr : RegField), s.fieldsOk [src, addr] = true →
      let a := (s.reg addr).toNat
      (a < s.cfg.stackN + s.cfg.heapH →
          ∃ t, exec (.write src addr) s = .next t ∧ t.memRead a = some (s.reg src) ∧
            (∀ b, b ≠ a → t.memRead b = s.memRead b) ∧
            (a < s.cfg.stackN → t.slot a = s.reg src ∧ t.heap = s.heap) ∧
            (s.cfg.stackN ≤ a → t.heap.read (a - s.cfg.stackN) = s.reg src ∧ t.stack = s.stack) ∧
            t.pc = s.pc + 4 ∧ { t with stack := s.stack, heap := s.heap, pc := s.pc } = s) ∧
        (s.cfg.stackN + s.cfg.heapH ≤ a →
          ∃ t, exec (.write src addr) s = .next t ∧ FaultStep s t .badAddress)

/-- R203, R204: SREAD and SWRITE raise UnimplementedOpcode, always, whatever their fields hold. -/
def Obligations.UnimplementedOpcodesAlwaysFault : Prop :=
  ∀ (b1 b2 : Byte) (s : State),
    (∀ (p : Byte) (tail : List Byte), decode ([0x2C, b1, b2, p] ++ tail) = .instr (.sread b1 b2) ∧
        decode ([0x2D, b1, b2, p] ++ tail) = .instr (.swrite b1 b2)) ∧
      (∃ t, exec (.sread b1 b2) s = .next t ∧ FaultStep s t .unimplementedOpcode) ∧
      ∃ t, exec (.swrite b1 b2) s = .next t ∧ FaultStep s t .unimplementedOpcode

/-! ### The heap -/

/-- R64, R65, R67, R69, R71, R210: `23 size dst pp` is MALLOC, the size register first. Where the segment
table meets R34, is not full, and some block fits, it takes the lowest base that fits, records it, and
writes the biased pointer; no word of memory changes. -/
def Obligations.MallocTakesTheLowestFit : Prop :=
  (∀ (a d p : Byte) (tail : List Byte), decode ([0x23, a, d, p] ++ tail) = .instr (.malloc a d)) ∧
    ∀ (s : State) (size dst : RegField), s.fieldsOk [size, dst] = true →
      SegmentsOk s.cfg.heapH s.segs → s.segs.length ≠ s.cfg.segCap →
      (∃ b, Fits s.cfg.heapH s.segs b (s.reg size).toNat) →
      ∃ t base, exec (.malloc size dst) s = .next t ∧
        Fits s.cfg.heapH s.segs base (s.reg size).toNat ∧
        (∀ b, b < base → ¬Fits s.cfg.heapH s.segs b (s.reg size).toNat) ∧
        (∃ pre post, s.segs = pre ++ post ∧ t.segs = pre ++ ⟨base, (s.reg size).toNat⟩ :: post) ∧
        SegmentsOk s.cfg.heapH t.segs ∧
        t.reg dst = BitVec.ofNat 32 (base + s.cfg.ptrBias) ∧ OthersKept s t dst ∧ t.pc = s.pc + 4 ∧
        (∀ a, t.memRead a = s.memRead a) ∧ { t with regs := s.regs, segs := s.segs, pc := s.pc } = s

/-- R66, R67, R210: where no block fits, or the segment table is full, MALLOC raises OutOfMemory and changes
neither table nor register. -/
def Obligations.MallocOutOfMemoryFaults : Prop :=
  (∀ (a d p : Byte) (tail : List Byte), decode ([0x23, a, d, p] ++ tail) = .instr (.malloc a d)) ∧
    ∀ (s : State) (size dst : RegField), s.fieldsOk [size, dst] = true → SegmentsOk s.cfg.heapH s.segs →
      ((∀ b, ¬Fits s.cfg.heapH s.segs b (s.reg size).toNat) ∨ s.segs.length = s.cfg.segCap) →
      ∃ t, exec (.malloc size dst) s = .next t ∧ FaultStep s t .outOfMemory

/-- R68, R71, R211: `24 ptr pp pp` is FREE. FREE of a live allocation's biased base removes the first live
entry with that base and nothing else, merging nothing; of any other pointer (the sentinel's, one below
PTR_BIAS, one already freed) it raises InvalidFree. -/
def Obligations.FreeRemovesTheFirstLiveEntry : Prop :=
  (∀ (a p q : Byte) (tail : List Byte), decode ([0x24, a, p, q] ++ tail) = .instr (.free a)) ∧
    ∀ (s : State) (ptr : RegField), s.fieldsOk [ptr] = true →
      let p := (s.reg ptr).toNat
      ((∃ g ∈ s.segs.dropLast, g.base + s.cfg.ptrBias = p) →
          ∃ t pre g post, exec (.free ptr) s = .next t ∧ s.segs = pre ++ g :: post ∧ post ≠ [] ∧
            g.base + s.cfg.ptrBias = p ∧ (∀ q ∈ pre, q.base ≠ g.base) ∧ t.segs = pre ++ post ∧
            t.pc = s.pc + 4 ∧ (∀ a, t.memRead a = s.memRead a) ∧
            { t with segs := s.segs, pc := s.pc } = s) ∧
        ((∀ g ∈ s.segs.dropLast, g.base + s.cfg.ptrBias ≠ p) →
          ∃ t, exec (.free ptr) s = .next t ∧ FaultStep s t .invalidFree)

/-! ### Conversions, copies, halt and print -/

/-- R220: FTOI gives 0 for a NaN, saturates outside the signed range, infinities included, and otherwise
rounds toward zero. -/
def Obligations.FloatToIntegerTruncatesAndSaturates : Prop :=
  (∀ (a d p : Byte) (tail : List Byte), decode ([0x25, a, d, p] ++ tail) = .instr (.ftoi a d)) ∧
    ∀ (s : State) (src dst : RegField), s.fieldsOk [src, dst] = true →
      ∃ t r, exec (.ftoi src dst) s = .next t ∧ RegisterStep s t dst (BitVec.ofInt 32 r) 4 ∧
        (f32 (s.reg src) = .nan → r = 0) ∧
        (f32 (s.reg src) = .infinite false → r = 2 ^ 31 - 1) ∧
        (f32 (s.reg src) = .infinite true → r = -2 ^ 31) ∧
        ∀ x : ℚ, (f32 (s.reg src)).toRat = some x →
          (2 ^ 31 ≤ x → r = 2 ^ 31 - 1) ∧ (x ≤ -2 ^ 31 - 1 → r = -2 ^ 31) ∧
            (0 ≤ x → x < 2 ^ 31 → r = ⌊x⌋) ∧ (-2 ^ 31 - 1 < x → x < 0 → r = ⌈x⌉)

/-- R221, R223: ITOF rounds the signed reading and F32 the unsigned reading to binary32, to nearest, ties
to even (`Obligations.RoundingIsToNearestTiesToEven` says what rne32 is). -/
def Obligations.IntegerToFloatRounds : Prop :=
  (∀ (a d p : Byte) (tail : List Byte), decode ([0x26, a, d, p] ++ tail) = .instr (.itof a d) ∧
      decode ([0x28, a, d, p] ++ tail) = .instr (.f32 a d)) ∧
    ∀ (s : State) (src dst : RegField), s.fieldsOk [src, dst] = true →
      (∃ t, exec (.itof src dst) s = .next t ∧
          RegisterStep s t dst
            (rne32 (decide ((s.reg src).toInt < 0)) (2 ^ 149 * (s.reg src).toInt.natAbs) 1) 4) ∧
        ∃ t, exec (.f32 src dst) s = .next t ∧
          RegisterStep s t dst (rne32 false (2 ^ 149 * (s.reg src).toNat) 1) 4

/-- R221: ITOF then FTOI gives back every integer that some binary32 pattern represents exactly. -/
def Obligations.IntegerFloatRoundTrip : Prop :=
  ∀ (s : State) (src mid dst : RegField), s.fieldsOk [src, mid, dst] = true →
    (∃ w : Word, (f32 w).toRat = some ((s.reg src).toInt : ℚ)) →
    ∃ t u, exec (.itof src mid) s = .next t ∧ exec (.ftoi mid dst) t = .next u ∧ u.reg dst = s.reg src

/-- R222, R232: I32 and MOV copy the bit pattern of src to dst, whatever it is. -/
def Obligations.BitCopies : Prop :=
  (∀ (a d p : Byte) (tail : List Byte), decode ([0x27, a, d, p] ++ tail) = .instr (.i32 a d) ∧
      decode ([0x2B, a, d, p] ++ tail) = .instr (.mov a d)) ∧
    ∀ (s : State) (src dst : RegField), s.fieldsOk [src, dst] = true →
      (∃ t, exec (.i32 src dst) s = .next t ∧ RegisterStep s t dst (s.reg src) 4) ∧
        ∃ t, exec (.mov src dst) s = .next t ∧ RegisterStep s t dst (s.reg src) 4

/-- R230, R231: HLT moves pc past itself and halts with Success, its register byte ignored; PRINT appends
the raw pattern of r to the output. Nothing else changes. -/
def Obligations.HaltAndPrint : Prop :=
  (∀ (r p q : Byte) (tail : List Byte), decode ([0x29, r, p, q] ++ tail) = .instr .hlt ∧
      decode ([0x2A, r, p, q] ++ tail) = .instr (.print r)) ∧
    (∀ s : State, ∃ t, exec .hlt s = .next t ∧ t.pc = s.pc + 4 ∧ t.statusWord = 2 ∧
      (∀ a, t.memRead a = s.memRead a) ∧ { t with pc := s.pc, engine := s.engine } = s) ∧
    ∀ (s : State) (r : RegField), s.fieldsOk [r] = true →
      ∃ t, exec (.print r) s = .next t ∧ t.output = s.output ++ [s.reg r] ∧ t.pc = s.pc + 4 ∧
        (∀ a, t.memRead a = s.memRead a) ∧ { t with pc := s.pc, output := s.output } = s
end

