-- ==== Sys2Proof/Laws/Allocator.lean ====
section
/-! SUPPORT. What the allocator can do, said once. -/

namespace Sys2Proof.Machine

/-- Where an entry is put by a scan that starts at `cursor`: the end of the entry before it, or the cursor
itself when it is put first. -/
def endOf (cursor : Nat) (pre : List Segment) : Nat :=
  match pre.getLast? with
  | none => cursor
  | some g => g.base + g.len

@[simp] theorem endOf_nil (cursor : Nat) : endOf cursor [] = cursor := rfl

theorem endOf_cons (cursor : Nat) (g : Segment) (pre : List Segment) :
    endOf cursor (g :: pre) = endOf (g.base + g.len) pre := by
  cases pre <;> simp [endOf, List.getLast?_cons]

/-- Everything a successful scan can do (R64, R65, R67): the table splits before the first entry `g` whose
gap holds the request, the new entry stands there, and no earlier gap holds it. -/
theorem allocScan_cases {size cursor : Nat} {segs : List Segment} {r : Nat × List Segment}
    (h : allocScan size cursor segs = some r) :
    ∃ pre g post, segs = pre ++ g :: post ∧ r.1 = endOf cursor pre ∧ r.1 + size ≤ g.base ∧
      r.2 = pre ++ ⟨r.1, size⟩ :: g :: post ∧
      ∀ p q l, pre = p ++ q :: l → q.base < endOf cursor p + size := by
  induction segs generalizing cursor r with
  | nil => simp [allocScan] at h
  | cons g rest ih =>
    unfold allocScan at h
    split at h
    · next hfit =>
      obtain rfl := Option.some.inj h
      exact ⟨[], g, rest, rfl, rfl, hfit, rfl, by simp⟩
    · next hfit =>
      obtain ⟨r', hr', rfl⟩ := Option.map_eq_some_iff.mp h
      obtain ⟨pre, g', post, rfl, hb, hle, hseg, hearly⟩ := ih hr'
      refine ⟨g :: pre, g', post, rfl, by rw [endOf_cons]; exact hb, hle, by simp [hseg], ?_⟩
      intro p q l hp
      cases p with
      | nil => obtain ⟨rfl, -⟩ := List.cons.inj hp; simpa using hfit
      | cons p0 p' =>
        obtain ⟨rfl, hp'⟩ := List.cons.inj hp
        rw [endOf_cons]
        exact hearly p' q l hp'

/-- A scan that fails found no gap: no entry's base is as far as the end before it plus the request. -/
theorem allocScan_none {size cursor : Nat} {segs : List Segment} (h : allocScan size cursor segs = none) :
    ∀ p q l, segs = p ++ q :: l → q.base < endOf cursor p + size := by
  induction segs generalizing cursor with
  | nil => simp
  | cons g rest ih =>
    unfold allocScan at h
    split at h
    · cases h
    · next hfit =>
      have h' := Option.map_eq_none_iff.mp h
      intro p q l hp
      cases p with
      | nil => obtain ⟨rfl, -⟩ := List.cons.inj hp; simpa using hfit
      | cons p0 p' =>
        obtain ⟨rfl, hp'⟩ := List.cons.inj hp
        rw [endOf_cons]
        exact ih h' p' q l hp'

/-- Everything a successful Alloc can do: a successful scan, a base below the arena's last index, a table
that was not full. -/
theorem alloc_cases {c : Config} {segs : List Segment} {size : Nat} {r : Nat × List Segment}
    (h : alloc c segs size = some r) :
    allocScan size 0 segs = some r ∧ r.1 < c.heapH - 1 ∧ segs.length ≠ c.segCap := by
  unfold alloc at h
  split at h
  · cases h
  · next base segs' hs =>
    split at h
    · cases h
    · split at h
      · cases h
      · next h1 h2 =>
        obtain rfl := Option.some.inj h
        exact ⟨hs, not_le.mp h1, h2⟩

/-- Everything a failed Alloc says. -/
theorem alloc_none {c : Config} {segs : List Segment} {size : Nat} (h : alloc c segs size = none) :
    allocScan size 0 segs = none ∨ (∃ r, allocScan size 0 segs = some r ∧ c.heapH - 1 ≤ r.1) ∨
      segs.length = c.segCap := by
  unfold alloc at h
  split at h
  · next hs => exact .inl hs
  · next base segs' hs =>
    split at h
    · next hb => exact .inr (.inl ⟨_, hs, hb⟩)
    · split at h
      · next hc => exact .inr (.inr hc)
      · cases h

/-- Everything a successful Free can do (R68): the first live entry with that base goes. -/
theorem release_cases {segs segs' : List Segment} {b : Nat} (h : release segs b = some segs') :
    ∃ pre g post, segs = pre ++ g :: post ∧ post ≠ [] ∧ g.base = b ∧ segs' = pre ++ post ∧
      ∀ q ∈ pre, q.base ≠ b := by
  induction segs generalizing segs' with
  | nil => simp [release] at h
  | cons g rest ih =>
    cases rest with
    | nil => simp [release] at h
    | cons h0 rest =>
      unfold release at h
      split at h
      · next hb =>
        obtain rfl := Option.some.inj h
        exact ⟨[], g, h0 :: rest, rfl, by simp, hb, rfl, by simp⟩
      · next hb =>
        obtain ⟨r, hr, rfl⟩ := Option.map_eq_some_iff.mp h
        obtain ⟨pre, g', post, hseg, hpost, hg, rfl, hpre⟩ := ih hr
        refine ⟨g :: pre, g', post, by rw [hseg]; rfl, hpost, hg, rfl, ?_⟩
        intro q hq
        rcases List.mem_cons.mp hq with rfl | hq
        · exact hb
        · exact hpre q hq

/-- A failed Free found no live entry with that base. -/
theorem release_none {segs : List Segment} {b : Nat} (h : release segs b = none) :
    ∀ g ∈ segs.dropLast, g.base ≠ b := by
  induction segs with
  | nil => simp
  | cons g rest ih =>
    cases rest with
    | nil => simp
    | cons h0 rest =>
      unfold release at h
      split at h
      · cases h
      · next hb =>
        intro q hq
        rw [List.dropLast_cons_cons] at hq
        rcases List.mem_cons.mp hq with rfl | hq
        · exact hb
        · exact ih (Option.map_eq_none_iff.mp h) q hq

end Sys2Proof.Machine
end

