-- ==== Sys2Proof/Laws/Decode.lean ====
section
/-! SUPPORT. What the decoder can answer, said once, and the little-endian assembly of bytes. -/

namespace Sys2Proof

/-- Assembling the four bytes of a word gives the word. -/
theorem le32_byteOf (v : Word) : le32 (byteOf v 0) (byteOf v 1) (byteOf v 2) (byteOf v 3) = v := by
  apply BitVec.eq_of_getLsbD_eq
  intro i hi
  simp only [le32, byteOf, BitVec.getLsbD_append, BitVec.getLsbD_extractLsb']
  interval_cases i <;> simp

/-- `le32` is R10's sum. -/
theorem le32_toNat (b0 b1 b2 b3 : Byte) :
    (le32 b0 b1 b2 b3).toNat = b0.toNat + 2 ^ 8 * b1.toNat + 2 ^ 16 * b2.toNat + 2 ^ 24 * b3.toNat := by
  have h0 := b0.isLt
  have h1 := b1.isLt
  have h2 := b2.isLt
  simp only [le32, BitVec.toNat_append]
  rw [← Nat.shiftLeft_add_eq_or_of_lt h0, ← Nat.shiftLeft_add_eq_or_of_lt h1,
    ← Nat.shiftLeft_add_eq_or_of_lt h2]
  simp only [Nat.shiftLeft_eq]
  ring

/-- Everything the decoder can answer on a nonempty byte sequence (R87, R90, R97). -/
theorem decode_cons (op : Byte) (rest : List Byte) :
    (46 ≤ op.toNat ∧ decode (op :: rest) = .illegalOpcode) ∨
      (op.toNat < 46 ∧ rest.length + 1 < widthOfOpcode op ∧ decode (op :: rest) = .truncated) ∨
      (op.toNat < 46 ∧ widthOfOpcode op ≤ rest.length + 1 ∧
        decode (op :: rest) = decodeOpcode op.toNat (rest.getD 0 0) (rest.getD 1 0) (rest.getD 2 0)
          (rest.getD 3 0) (rest.getD 4 0)) := by
  unfold decode
  by_cases h : 46 ≤ op.toNat
  · exact .inl ⟨h, by simp [h]⟩
  · by_cases hw : rest.length + 1 < widthOfOpcode op
    · exact .inr (.inl ⟨by omega, hw, by simp [h, hw]⟩)
    · exact .inr (.inr ⟨by omega, by omega, by simp [h, hw]⟩)

end Sys2Proof
end

