-- ==== Sys2Proof/Laws/Float.lean ====
section
/-! SUPPORT. What the float helpers can do, said once: rounding to a whole number, patterns with a sign,
and the datum a rounded pattern encodes. -/

namespace Sys2Proof.Machine

/-- Everything `roundHalfEven` can answer: the quotient or the next number, by the remainder's half. -/
theorem roundHalfEven_cases (num den : Nat) :
    (2 * (num % den) < den ∧ roundHalfEven num den = num / den) ∨
      (den < 2 * (num % den) ∧ roundHalfEven num den = num / den + 1) ∨
      (2 * (num % den) = den ∧ roundHalfEven num den = num / den + num / den % 2) := by
  unfold roundHalfEven
  dsimp only
  split
  · exact .inl ⟨by assumption, rfl⟩
  · split
    · exact .inr (.inl ⟨by assumption, rfl⟩)
    · exact .inr (.inr ⟨by omega, rfl⟩)

/-- The rounded number is within half a unit. -/
theorem roundHalfEven_near {num den : Nat} (hden : 0 < den) :
    2 * num ≤ 2 * (roundHalfEven num den * den) + den ∧ 2 * (roundHalfEven num den * den) ≤ 2 * num + den := by
  have hdm := Nat.div_add_mod' num den
  have hlt : num % den < den := Nat.mod_lt _ hden
  rcases roundHalfEven_cases num den with ⟨h, e⟩ | ⟨h, e⟩ | ⟨h, e⟩
  · rw [e]; omega
  · rw [e, Nat.add_mul, Nat.one_mul]; omega
  · rw [e, Nat.add_mul]
    rcases Nat.mod_two_eq_zero_or_one (num / den) with h2 | h2 <;> rw [h2] <;> omega

/-- On a tie the rounded number is even. -/
theorem roundHalfEven_tie {num den : Nat} (hden : 0 < den)
    (h : 2 * num = 2 * (roundHalfEven num den * den) + den ∨
      2 * (roundHalfEven num den * den) = 2 * num + den) : roundHalfEven num den % 2 = 0 := by
  have hdm := Nat.div_add_mod' num den
  have hlt : num % den < den := Nat.mod_lt _ hden
  rcases roundHalfEven_cases num den with ⟨h1, e⟩ | ⟨h1, e⟩ | ⟨h1, e⟩
  · rw [e] at h; omega
  · rw [e, Nat.add_mul, Nat.one_mul] at h; omega
  · rw [e]; omega

/-! ### Patterns -/

theorem withSign_toNat {neg : Bool} {p : Nat} (h : p < 2 ^ 31) :
    (withSign neg p).toNat = if neg then 2 ^ 31 + p else p := by
  cases neg <;> (simp [withSign]; omega)

theorem withSign_msb {neg : Bool} {p : Nat} (h : p < 2 ^ 31) : (withSign neg p).msb = neg := by
  rw [BitVec.msb_eq_decide, withSign_toNat h]
  cases neg <;> simp <;> omega

/-- Bit 31 of a pattern is the sign of its datum. -/
theorem withSign_sign {neg : Bool} {p : Nat} (h : p < 2 ^ 31) : (withSign neg p).getLsbD 31 = neg := by
  have := withSign_msb (neg := neg) h
  simpa [BitVec.msb, BitVec.getMsbD] using this

/-- The datum of a pattern with a sign. -/
theorem f32_withSign {neg : Bool} {p : Nat} (h : p < 2 ^ 31) :
    f32 (withSign neg p) =
      if p / 2 ^ 23 = 255 then if p % 2 ^ 23 = 0 then .infinite neg else .nan
      else if p / 2 ^ 23 = 0 then .finite neg (p % 2 ^ 23)
      else .finite neg ((2 ^ 23 + p % 2 ^ 23) * 2 ^ (p / 2 ^ 23 - 1)) := by
  unfold f32
  dsimp only
  rw [withSign_sign h, withSign_toNat h]
  have h1 : (if neg then 2 ^ 31 + p else p) / 2 ^ 23 % 256 = p / 2 ^ 23 := by cases neg <;> simp <;> omega
  have h2 : (if neg then 2 ^ 31 + p else p) % 2 ^ 23 = p % 2 ^ 23 := by cases neg <;> simp <;> omega
  rw [h1, h2]

@[simp] theorem f32_infinityOf (neg : Bool) : f32 (infinityOf neg) = .infinite neg := by
  unfold infinityOf
  rw [f32_withSign (by unfold infinityBits; norm_num)]
  unfold infinityBits
  norm_num

/-- The patterns of the two infinities (R140 item 3). -/
theorem infinityOf_pattern (neg : Bool) : infinityOf neg = if neg then 0xFF800000 else 0x7F800000 := by
  cases neg <;> decide +kernel

/-- The patterns of the two zeros. -/
theorem withSign_zero (neg : Bool) : withSign neg 0 = if neg then 0x80000000 else 0x00000000 := by
  cases neg <;> decide +kernel

/-- An exact zero is rounded to the zero of its sign. -/
theorem rne32_zero (neg : Bool) (den : Nat) : rne32 neg 0 den = withSign neg 0 := by
  simp [rne32, roundedBits, spacingExponent, roundHalfEven]

/-- The pattern `roundedBits` builds from a spacing exponent q and a multiple r of 2^q encodes r * 2^q: for
a subnormal (q = 0, r below 2^23), for a normal significand, and for one that carried to 2^24. -/
theorem f32_withSign_spacing {neg : Bool} {q r : Nat} (hr : r ≤ 2 ^ 24) (hq : q = 0 ∨ 2 ^ 23 ≤ r)
    (h : 2 ^ 23 * q + r < infinityBits) : f32 (withSign neg (2 ^ 23 * q + r)) = .finite neg (r * 2 ^ q) := by
  unfold infinityBits at h
  rw [f32_withSign (by omega)]
  by_cases h1 : r < 2 ^ 23
  · obtain rfl : q = 0 := by omega
    rw [if_neg (by omega), if_pos (by omega)]
    simp only [Nat.mul_zero, Nat.zero_add, pow_zero, Nat.mul_one]
    rw [Nat.mod_eq_of_lt h1]
  · by_cases h2 : r = 2 ^ 24
    · subst h2
      have hd : (2 ^ 23 * q + 2 ^ 24) / 2 ^ 23 = q + 2 := by omega
      have hm : (2 ^ 23 * q + 2 ^ 24) % 2 ^ 23 = 0 := by omega
      rw [hd, hm, if_neg (by omega), if_neg (by omega), show q + 2 - 1 = q + 1 by omega, Nat.add_zero]
      exact congrArg _ (by rw [pow_add]; ring)
    · have hd : (2 ^ 23 * q + r) / 2 ^ 23 = q + 1 := by omega
      have hm : (2 ^ 23 * q + r) % 2 ^ 23 = r - 2 ^ 23 := by omega
      rw [hd, hm, if_neg (by omega), if_neg (by omega), Nat.add_sub_cancel, Nat.add_sub_cancel' (by omega)]

/-- Where num / den stands against its spacing: below 2^24 units of 2^q, and, but for the subnormals, at or
above 2^23 of them. -/
theorem spacingExponent_bounds {num den : Nat} (hden : 0 < den) :
    num < 2 ^ 24 * 2 ^ spacingExponent num den * den ∧
      (spacingExponent num den = 0 ∨ 2 ^ 23 * 2 ^ spacingExponent num den * den ≤ num) := by
  unfold spacingExponent
  have hpos : 0 < 2 ^ 23 * den := by positivity
  have hdm := Nat.div_add_mod num (2 ^ 23 * den)
  have hmod := Nat.mod_lt num hpos
  by_cases h0 : num / (2 ^ 23 * den) = 0
  · rw [h0] at hdm ⊢
    simp only [Nat.log2_zero, pow_zero, true_or, and_true]
    omega
  · have hle := Nat.log2_self_le h0
    have hlt := Nat.lt_log2_self (n := num / (2 ^ 23 * den))
    set x := num / (2 ^ 23 * den)
    set q := Nat.log2 x
    constructor
    · have hx : x + 1 ≤ 2 ^ (q + 1) := hlt
      calc num < (x + 1) * (2 ^ 23 * den) := by rw [Nat.succ_mul, Nat.mul_comm x]; omega
        _ ≤ 2 ^ (q + 1) * (2 ^ 23 * den) := Nat.mul_le_mul_right _ hx
        _ = _ := by rw [pow_succ]; ring
    · right
      calc _ = 2 ^ q * (2 ^ 23 * den) := by ring
        _ ≤ x * (2 ^ 23 * den) := Nat.mul_le_mul_right _ hle
        _ ≤ num := by rw [Nat.mul_comm x]; omega

end Sys2Proof.Machine
end

