-- ==== Sys2Proof/Laws/HostPort.lean ====
section
/-! SUPPORT. What the host's guarded reads can answer, said once. -/

namespace Sys2Proof.Machine

/-- Outside Running a guarded read answers what it reads (R270). -/
theorem hostQuiet_of_ne {α : Type} {s : State} (h : s.engine ≠ .running) (r : Host.Outcome α Fault Refusal) :
    hostQuiet s r = r := if_neg h

/-- While Running it is refused (R270). -/
theorem hostQuiet_of_running {α : Type} {s : State} (h : s.engine = .running)
    (r : Host.Outcome α Fault Refusal) : hostQuiet s r = .refused .hostReadWhileRunning := if_pos h

/-- An element that exists answers its value. -/
theorem hostElement_of_lt {k n : Nat} (h : k < n) (v : Word) : hostElement (decide (k < n)) v = .next v :=
  if_pos (decide_eq_true h)

end Sys2Proof.Machine
end

