-- ==== Sys2Proof/Laws/Memory.lean ====
section
/-! SUPPORT. The laws of a sparse memory: reading after writing, and that every write keeps the canonical
form and the bound on listed indices. The reading laws hold of every memory, canonical or not. -/

namespace Sys2Proof.Machine

@[simp] theorem Memory.read_nil (k : Nat) : Memory.read [] k = 0 := rfl

theorem Memory.read_cons (a : Nat) (v : Word) (m : Memory) (k : Nat) :
    Memory.read ((a, v) :: m) k = if a = k then v else Memory.read m k := rfl

theorem Memory.erase_cons (a : Nat) (v : Word) (m : Memory) (k : Nat) :
    Memory.erase ((a, v) :: m) k = if a = k then m.erase k else (a, v) :: m.erase k := by
  by_cases h : a = k <;> simp [Memory.erase, h]

theorem Memory.read_erase_same (m : Memory) (k : Nat) : (m.erase k).read k = 0 := by
  induction m with
  | nil => rfl
  | cons c rest ih =>
    obtain ⟨a, v⟩ := c
    rw [Memory.erase_cons]
    split
    · exact ih
    · next h => rw [Memory.read_cons, if_neg h, ih]

theorem Memory.read_erase_other (m : Memory) {k j : Nat} (h : j ≠ k) : (m.erase k).read j = m.read j := by
  induction m with
  | nil => rfl
  | cons c rest ih =>
    obtain ⟨a, v⟩ := c
    rw [Memory.erase_cons, Memory.read_cons]
    split
    · next ha => rw [if_neg (by omega), ih]
    · rw [Memory.read_cons, ih]

theorem Memory.read_insert_other (m : Memory) {k j : Nat} (v : Word) (h : j ≠ k) :
    (m.insert k v).read j = m.read j := by
  induction m with
  | nil => simp [Memory.insert, Memory.read_cons, Ne.symm h, Memory.read]
  | cons c rest ih =>
    obtain ⟨a, w⟩ := c
    unfold Memory.insert
    split
    · simp [Memory.read_cons, Ne.symm h]
    · simp [Memory.read_cons, ih]

/-- Where no entry stands at `k`, an inserted entry is what `k` reads as. -/
theorem Memory.read_insert_same (m : Memory) (k : Nat) (v : Word) (h : ∀ c ∈ m, c.1 ≠ k) :
    (m.insert k v).read k = v := by
  induction m with
  | nil => simp [Memory.insert, Memory.read_cons]
  | cons c rest ih =>
    obtain ⟨a, w⟩ := c
    have ha : a ≠ k := h (a, w) (by simp)
    have hr := ih fun d hd => h d (by simp [hd])
    unfold Memory.insert
    split <;> simp [Memory.read_cons, ha, hr]

theorem Memory.mem_erase {m : Memory} {k : Nat} {c : Nat × Word} :
    c ∈ m.erase k ↔ c ∈ m ∧ c.1 ≠ k := by
  simp [Memory.erase]

theorem Memory.mem_insert {m : Memory} {k : Nat} {v : Word} {c : Nat × Word} :
    c ∈ m.insert k v ↔ c = (k, v) ∨ c ∈ m := by
  induction m with
  | nil => simp [Memory.insert]
  | cons d rest ih =>
    obtain ⟨a, w⟩ := d
    unfold Memory.insert
    split
    · simp
    · simp only [List.mem_cons, ih]
      tauto

/-- A write is what a later read of the same index gives. -/
@[simp] theorem Memory.read_write_same (m : Memory) (k : Nat) (v : Word) : (m.write k v).read k = v := by
  unfold Memory.write
  split
  · next h => rw [Memory.read_erase_same, h]; rfl
  · exact Memory.read_insert_same _ _ _ fun c hc => (Memory.mem_erase.mp hc).2

/-- A write leaves every other index alone. -/
theorem Memory.read_write_other (m : Memory) {k j : Nat} (v : Word) (h : j ≠ k) :
    (m.write k v).read j = m.read j := by
  unfold Memory.write
  split
  · exact Memory.read_erase_other m h
  · rw [Memory.read_insert_other _ v h, Memory.read_erase_other m h]

/-- Both reading laws at once. -/
theorem Memory.read_write (m : Memory) (k j : Nat) (v : Word) :
    (m.write k v).read j = if j = k then v else m.read j := by
  split
  · next h => subst h; exact Memory.read_write_same m j v
  · next h => exact Memory.read_write_other m v h

theorem Memory.wf_iff (m : Memory) :
    m.wf = true ↔ m.Pairwise (fun c d => c.1 < d.1) ∧ ∀ c ∈ m, c.2 ≠ 0 := by
  simp only [Memory.wf, Bool.and_eq_true, decide_eq_true_eq, List.all_eq_true]
  rfl

theorem Memory.below_iff (m : Memory) (n : Nat) : m.below n = true ↔ ∀ c ∈ m, c.1 < n := by
  simp [Memory.below]

theorem Memory.erase_wf {m : Memory} (k : Nat) (h : m.wf = true) : (m.erase k).wf = true := by
  rw [Memory.wf_iff] at h ⊢
  exact ⟨h.1.filter _, fun c hc => h.2 c (Memory.mem_erase.mp hc).1⟩

theorem Memory.insert_wf {m : Memory} {k : Nat} {v : Word} (h : m.wf = true)
    (hk : ∀ c ∈ m, c.1 ≠ k) (hv : v ≠ 0) : (m.insert k v).wf = true := by
  rw [Memory.wf_iff] at h ⊢
  refine ⟨?_, fun c hc => ?_⟩
  · obtain ⟨hp, -⟩ := h
    induction m with
    | nil => simp [Memory.insert]
    | cons d rest ih =>
      obtain ⟨a, w⟩ := d
      have hak : a ≠ k := hk (a, w) (by simp)
      rw [List.pairwise_cons] at hp
      unfold Memory.insert
      split
      · next hlt =>
        rw [List.pairwise_cons, List.pairwise_cons]
        refine ⟨fun c hc => ?_, hp⟩
        rcases List.mem_cons.mp hc with rfl | hc
        · exact hlt
        · exact lt_trans hlt (hp.1 c hc)
      · next hlt =>
        rw [List.pairwise_cons]
        refine ⟨fun c hc => ?_, ih (fun c hc => hk c (by simp [hc])) hp.2⟩
        rcases Memory.mem_insert.mp hc with rfl | hc
        · exact lt_of_le_of_ne (not_lt.mp hlt) hak
        · exact hp.1 c hc
  · rcases Memory.mem_insert.mp hc with rfl | hc
    · exact hv
    · exact h.2 c hc

/-- Every write keeps the canonical form. -/
theorem Memory.write_wf {m : Memory} (k : Nat) (v : Word) (h : m.wf = true) : (m.write k v).wf = true := by
  unfold Memory.write
  split
  · exact Memory.erase_wf k h
  · next hv => exact Memory.insert_wf (Memory.erase_wf k h) (fun c hc => (Memory.mem_erase.mp hc).2) hv

/-- A write inside an array of `n` words keeps the memory inside it. -/
theorem Memory.write_below {m : Memory} {k n : Nat} (v : Word) (hk : k < n) (h : m.below n = true) :
    (m.write k v).below n = true := by
  rw [Memory.below_iff] at h ⊢
  intro c hc
  unfold Memory.write at hc
  split at hc
  · exact h c (Memory.mem_erase.mp hc).1
  · rcases Memory.mem_insert.mp hc with rfl | hc
    · exact hk
    · exact h c (Memory.mem_erase.mp hc).1

/-- The memories of the reset state have the canonical form. -/
theorem State.reset_memories_wf :
    State.reset.regs.wf = true ∧ State.reset.stack.wf = true ∧ State.reset.heap.wf = true := by decide

end Sys2Proof.Machine
end

