-- ==== Sys2Proof/Laws/State.lean ====
section
/-! SUPPORT. What each update of the state does to each field: one lemma per field per update, so that no
later proof unfolds a record update. -/

namespace Sys2Proof.Machine

@[simp] theorem State.setReg_cfg (s : State) (r : RegField) (v : Word) : (s.setReg r v).cfg = s.cfg := rfl
@[simp] theorem State.setReg_regs (s : State) (r : RegField) (v : Word) : (s.setReg r v).regs = s.regs.write r.toNat v := rfl
@[simp] theorem State.setReg_pc (s : State) (r : RegField) (v : Word) : (s.setReg r v).pc = s.pc := rfl
@[simp] theorem State.setReg_prog (s : State) (r : RegField) (v : Word) : (s.setReg r v).prog = s.prog := rfl
@[simp] theorem State.setReg_stack (s : State) (r : RegField) (v : Word) : (s.setReg r v).stack = s.stack := rfl
@[simp] theorem State.setReg_sp (s : State) (r : RegField) (v : Word) : (s.setReg r v).sp = s.sp := rfl
@[simp] theorem State.setReg_heap (s : State) (r : RegField) (v : Word) : (s.setReg r v).heap = s.heap := rfl
@[simp] theorem State.setReg_segs (s : State) (r : RegField) (v : Word) : (s.setReg r v).segs = s.segs := rfl
@[simp] theorem State.setReg_engine (s : State) (r : RegField) (v : Word) : (s.setReg r v).engine = s.engine := rfl
@[simp] theorem State.setReg_output (s : State) (r : RegField) (v : Word) : (s.setReg r v).output = s.output := rfl
@[simp] theorem State.setReg_nanDraws (s : State) (r : RegField) (v : Word) : (s.setReg r v).nanDraws = s.nanDraws := rfl

@[simp] theorem State.jumpTo_cfg (s : State) (w : Word) : (s.jumpTo w).cfg = s.cfg := rfl
@[simp] theorem State.jumpTo_regs (s : State) (w : Word) : (s.jumpTo w).regs = s.regs := rfl
@[simp] theorem State.jumpTo_pc (s : State) (w : Word) : (s.jumpTo w).pc = w := rfl
@[simp] theorem State.jumpTo_prog (s : State) (w : Word) : (s.jumpTo w).prog = s.prog := rfl
@[simp] theorem State.jumpTo_stack (s : State) (w : Word) : (s.jumpTo w).stack = s.stack := rfl
@[simp] theorem State.jumpTo_sp (s : State) (w : Word) : (s.jumpTo w).sp = s.sp := rfl
@[simp] theorem State.jumpTo_heap (s : State) (w : Word) : (s.jumpTo w).heap = s.heap := rfl
@[simp] theorem State.jumpTo_segs (s : State) (w : Word) : (s.jumpTo w).segs = s.segs := rfl
@[simp] theorem State.jumpTo_engine (s : State) (w : Word) : (s.jumpTo w).engine = s.engine := rfl
@[simp] theorem State.jumpTo_output (s : State) (w : Word) : (s.jumpTo w).output = s.output := rfl
@[simp] theorem State.jumpTo_nanDraws (s : State) (w : Word) : (s.jumpTo w).nanDraws = s.nanDraws := rfl

@[simp] theorem State.advance_cfg (s : State) (n : Nat) : (s.advance n).cfg = s.cfg := rfl
@[simp] theorem State.advance_regs (s : State) (n : Nat) : (s.advance n).regs = s.regs := rfl
@[simp] theorem State.advance_pc (s : State) (n : Nat) : (s.advance n).pc = s.pc + BitVec.ofNat 32 n := rfl
@[simp] theorem State.advance_prog (s : State) (n : Nat) : (s.advance n).prog = s.prog := rfl
@[simp] theorem State.advance_stack (s : State) (n : Nat) : (s.advance n).stack = s.stack := rfl
@[simp] theorem State.advance_sp (s : State) (n : Nat) : (s.advance n).sp = s.sp := rfl
@[simp] theorem State.advance_heap (s : State) (n : Nat) : (s.advance n).heap = s.heap := rfl
@[simp] theorem State.advance_segs (s : State) (n : Nat) : (s.advance n).segs = s.segs := rfl
@[simp] theorem State.advance_engine (s : State) (n : Nat) : (s.advance n).engine = s.engine := rfl
@[simp] theorem State.advance_output (s : State) (n : Nat) : (s.advance n).output = s.output := rfl
@[simp] theorem State.advance_nanDraws (s : State) (n : Nat) : (s.advance n).nanDraws = s.nanDraws := rfl

@[simp] theorem State.raise_cfg (s : State) (k : FaultKind) : (s.raise k).cfg = s.cfg := rfl
@[simp] theorem State.raise_regs (s : State) (k : FaultKind) : (s.raise k).regs = s.regs := rfl
@[simp] theorem State.raise_pc (s : State) (k : FaultKind) : (s.raise k).pc = s.pc := rfl
@[simp] theorem State.raise_prog (s : State) (k : FaultKind) : (s.raise k).prog = s.prog := rfl
@[simp] theorem State.raise_stack (s : State) (k : FaultKind) : (s.raise k).stack = s.stack := rfl
@[simp] theorem State.raise_sp (s : State) (k : FaultKind) : (s.raise k).sp = s.sp := rfl
@[simp] theorem State.raise_heap (s : State) (k : FaultKind) : (s.raise k).heap = s.heap := rfl
@[simp] theorem State.raise_segs (s : State) (k : FaultKind) : (s.raise k).segs = s.segs := rfl
@[simp] theorem State.raise_engine (s : State) (k : FaultKind) : (s.raise k).engine = .fault k := rfl
@[simp] theorem State.raise_output (s : State) (k : FaultKind) : (s.raise k).output = s.output := rfl
@[simp] theorem State.raise_nanDraws (s : State) (k : FaultKind) : (s.raise k).nanDraws = s.nanDraws := rfl

@[simp] theorem State.haltSuccess_cfg (s : State) : (s.haltSuccess).cfg = s.cfg := rfl
@[simp] theorem State.haltSuccess_regs (s : State) : (s.haltSuccess).regs = s.regs := rfl
@[simp] theorem State.haltSuccess_pc (s : State) : (s.haltSuccess).pc = s.pc := rfl
@[simp] theorem State.haltSuccess_prog (s : State) : (s.haltSuccess).prog = s.prog := rfl
@[simp] theorem State.haltSuccess_stack (s : State) : (s.haltSuccess).stack = s.stack := rfl
@[simp] theorem State.haltSuccess_sp (s : State) : (s.haltSuccess).sp = s.sp := rfl
@[simp] theorem State.haltSuccess_heap (s : State) : (s.haltSuccess).heap = s.heap := rfl
@[simp] theorem State.haltSuccess_segs (s : State) : (s.haltSuccess).segs = s.segs := rfl
@[simp] theorem State.haltSuccess_engine (s : State) : (s.haltSuccess).engine = .success := rfl
@[simp] theorem State.haltSuccess_output (s : State) : (s.haltSuccess).output = s.output := rfl
@[simp] theorem State.haltSuccess_nanDraws (s : State) : (s.haltSuccess).nanDraws = s.nanDraws := rfl

@[simp] theorem State.emit_cfg (s : State) (v : Word) : (s.emit v).cfg = s.cfg := rfl
@[simp] theorem State.emit_regs (s : State) (v : Word) : (s.emit v).regs = s.regs := rfl
@[simp] theorem State.emit_pc (s : State) (v : Word) : (s.emit v).pc = s.pc := rfl
@[simp] theorem State.emit_prog (s : State) (v : Word) : (s.emit v).prog = s.prog := rfl
@[simp] theorem State.emit_stack (s : State) (v : Word) : (s.emit v).stack = s.stack := rfl
@[simp] theorem State.emit_sp (s : State) (v : Word) : (s.emit v).sp = s.sp := rfl
@[simp] theorem State.emit_heap (s : State) (v : Word) : (s.emit v).heap = s.heap := rfl
@[simp] theorem State.emit_segs (s : State) (v : Word) : (s.emit v).segs = s.segs := rfl
@[simp] theorem State.emit_engine (s : State) (v : Word) : (s.emit v).engine = s.engine := rfl
@[simp] theorem State.emit_output (s : State) (v : Word) : (s.emit v).output = s.output ++ [v] := rfl
@[simp] theorem State.emit_nanDraws (s : State) (v : Word) : (s.emit v).nanDraws = s.nanDraws := rfl

@[simp] theorem State.setSlot_cfg (s : State) (k : Nat) (v : Word) : (s.setSlot k v).cfg = s.cfg := rfl
@[simp] theorem State.setSlot_regs (s : State) (k : Nat) (v : Word) : (s.setSlot k v).regs = s.regs := rfl
@[simp] theorem State.setSlot_pc (s : State) (k : Nat) (v : Word) : (s.setSlot k v).pc = s.pc := rfl
@[simp] theorem State.setSlot_prog (s : State) (k : Nat) (v : Word) : (s.setSlot k v).prog = s.prog := rfl
@[simp] theorem State.setSlot_stack (s : State) (k : Nat) (v : Word) : (s.setSlot k v).stack = s.stack.write k v := rfl
@[simp] theorem State.setSlot_sp (s : State) (k : Nat) (v : Word) : (s.setSlot k v).sp = s.sp := rfl
@[simp] theorem State.setSlot_heap (s : State) (k : Nat) (v : Word) : (s.setSlot k v).heap = s.heap := rfl
@[simp] theorem State.setSlot_segs (s : State) (k : Nat) (v : Word) : (s.setSlot k v).segs = s.segs := rfl
@[simp] theorem State.setSlot_engine (s : State) (k : Nat) (v : Word) : (s.setSlot k v).engine = s.engine := rfl
@[simp] theorem State.setSlot_output (s : State) (k : Nat) (v : Word) : (s.setSlot k v).output = s.output := rfl
@[simp] theorem State.setSlot_nanDraws (s : State) (k : Nat) (v : Word) : (s.setSlot k v).nanDraws = s.nanDraws := rfl

@[simp] theorem State.setSp_cfg (s : State) (n : Nat) : (s.setSp n).cfg = s.cfg := rfl
@[simp] theorem State.setSp_regs (s : State) (n : Nat) : (s.setSp n).regs = s.regs := rfl
@[simp] theorem State.setSp_pc (s : State) (n : Nat) : (s.setSp n).pc = s.pc := rfl
@[simp] theorem State.setSp_prog (s : State) (n : Nat) : (s.setSp n).prog = s.prog := rfl
@[simp] theorem State.setSp_stack (s : State) (n : Nat) : (s.setSp n).stack = s.stack := rfl
@[simp] theorem State.setSp_sp (s : State) (n : Nat) : (s.setSp n).sp = n := rfl
@[simp] theorem State.setSp_heap (s : State) (n : Nat) : (s.setSp n).heap = s.heap := rfl
@[simp] theorem State.setSp_segs (s : State) (n : Nat) : (s.setSp n).segs = s.segs := rfl
@[simp] theorem State.setSp_engine (s : State) (n : Nat) : (s.setSp n).engine = s.engine := rfl
@[simp] theorem State.setSp_output (s : State) (n : Nat) : (s.setSp n).output = s.output := rfl
@[simp] theorem State.setSp_nanDraws (s : State) (n : Nat) : (s.setSp n).nanDraws = s.nanDraws := rfl

@[simp] theorem State.setSegs_cfg (s : State) (g : List Segment) : (s.setSegs g).cfg = s.cfg := rfl
@[simp] theorem State.setSegs_regs (s : State) (g : List Segment) : (s.setSegs g).regs = s.regs := rfl
@[simp] theorem State.setSegs_pc (s : State) (g : List Segment) : (s.setSegs g).pc = s.pc := rfl
@[simp] theorem State.setSegs_prog (s : State) (g : List Segment) : (s.setSegs g).prog = s.prog := rfl
@[simp] theorem State.setSegs_stack (s : State) (g : List Segment) : (s.setSegs g).stack = s.stack := rfl
@[simp] theorem State.setSegs_sp (s : State) (g : List Segment) : (s.setSegs g).sp = s.sp := rfl
@[simp] theorem State.setSegs_heap (s : State) (g : List Segment) : (s.setSegs g).heap = s.heap := rfl
@[simp] theorem State.setSegs_segs (s : State) (g : List Segment) : (s.setSegs g).segs = g := rfl
@[simp] theorem State.setSegs_engine (s : State) (g : List Segment) : (s.setSegs g).engine = s.engine := rfl
@[simp] theorem State.setSegs_output (s : State) (g : List Segment) : (s.setSegs g).output = s.output := rfl
@[simp] theorem State.setSegs_nanDraws (s : State) (g : List Segment) : (s.setSegs g).nanDraws = s.nanDraws := rfl

@[simp] theorem State.endOfProgram_cfg (s : State) : (s.endOfProgram).cfg = s.cfg := rfl
@[simp] theorem State.endOfProgram_regs (s : State) : (s.endOfProgram).regs = s.regs := rfl
@[simp] theorem State.endOfProgram_pc (s : State) : (s.endOfProgram).pc = s.pc := rfl
@[simp] theorem State.endOfProgram_prog (s : State) : (s.endOfProgram).prog = s.prog := rfl
@[simp] theorem State.endOfProgram_stack (s : State) : (s.endOfProgram).stack = s.stack := rfl
@[simp] theorem State.endOfProgram_sp (s : State) : (s.endOfProgram).sp = s.sp := rfl
@[simp] theorem State.endOfProgram_heap (s : State) : (s.endOfProgram).heap = s.heap := rfl
@[simp] theorem State.endOfProgram_segs (s : State) : (s.endOfProgram).segs = s.segs := rfl
@[simp] theorem State.endOfProgram_engine (s : State) : (s.endOfProgram).engine = .success := rfl
@[simp] theorem State.endOfProgram_output (s : State) : (s.endOfProgram).output = s.output := rfl
@[simp] theorem State.endOfProgram_nanDraws (s : State) : (s.endOfProgram).nanDraws = s.nanDraws := rfl

@[simp] theorem State.setRunning_cfg (s : State) : (s.setRunning).cfg = s.cfg := rfl
@[simp] theorem State.setRunning_regs (s : State) : (s.setRunning).regs = s.regs := rfl
@[simp] theorem State.setRunning_pc (s : State) : (s.setRunning).pc = s.pc := rfl
@[simp] theorem State.setRunning_prog (s : State) : (s.setRunning).prog = s.prog := rfl
@[simp] theorem State.setRunning_stack (s : State) : (s.setRunning).stack = s.stack := rfl
@[simp] theorem State.setRunning_sp (s : State) : (s.setRunning).sp = s.sp := rfl
@[simp] theorem State.setRunning_heap (s : State) : (s.setRunning).heap = s.heap := rfl
@[simp] theorem State.setRunning_segs (s : State) : (s.setRunning).segs = s.segs := rfl
@[simp] theorem State.setRunning_engine (s : State) : (s.setRunning).engine = .running := rfl
@[simp] theorem State.setRunning_output (s : State) : (s.setRunning).output = s.output := rfl
@[simp] theorem State.setRunning_nanDraws (s : State) : (s.setRunning).nanDraws = s.nanDraws := rfl

@[simp] theorem State.placeAtPc_cfg (s : State) (b : List Byte) : (s.placeAtPc b).cfg = s.cfg := rfl
@[simp] theorem State.placeAtPc_regs (s : State) (b : List Byte) : (s.placeAtPc b).regs = s.regs := rfl
@[simp] theorem State.placeAtPc_pc (s : State) (b : List Byte) : (s.placeAtPc b).pc = s.pc := rfl
@[simp] theorem State.placeAtPc_stack (s : State) (b : List Byte) : (s.placeAtPc b).stack = s.stack := rfl
@[simp] theorem State.placeAtPc_sp (s : State) (b : List Byte) : (s.placeAtPc b).sp = s.sp := rfl
@[simp] theorem State.placeAtPc_heap (s : State) (b : List Byte) : (s.placeAtPc b).heap = s.heap := rfl
@[simp] theorem State.placeAtPc_segs (s : State) (b : List Byte) : (s.placeAtPc b).segs = s.segs := rfl
@[simp] theorem State.placeAtPc_engine (s : State) (b : List Byte) : (s.placeAtPc b).engine = s.engine := rfl
@[simp] theorem State.placeAtPc_output (s : State) (b : List Byte) : (s.placeAtPc b).output = s.output := rfl
@[simp] theorem State.placeAtPc_nanDraws (s : State) (b : List Byte) : (s.placeAtPc b).nanDraws = s.nanDraws := rfl

@[simp] theorem State.hostReset_cfg (s : State) : (s.hostReset).cfg = s.cfg := rfl
@[simp] theorem State.hostReset_regs (s : State) : (s.hostReset).regs = [] := rfl
@[simp] theorem State.hostReset_pc (s : State) : (s.hostReset).pc = 0 := rfl
@[simp] theorem State.hostReset_prog (s : State) : (s.hostReset).prog = [] := rfl
@[simp] theorem State.hostReset_stack (s : State) : (s.hostReset).stack = [] := rfl
@[simp] theorem State.hostReset_sp (s : State) : (s.hostReset).sp = 0 := rfl
@[simp] theorem State.hostReset_heap (s : State) : (s.hostReset).heap = [] := rfl
@[simp] theorem State.hostReset_segs (s : State) : (s.hostReset).segs = [⟨s.cfg.heapH - 1, 0⟩] := rfl
@[simp] theorem State.hostReset_engine (s : State) : (s.hostReset).engine = .idle := rfl
@[simp] theorem State.hostReset_output (s : State) : (s.hostReset).output = s.output := rfl
@[simp] theorem State.hostReset_nanDraws (s : State) : (s.hostReset).nanDraws = s.nanDraws := rfl

@[simp] theorem State.hostLoad_cfg (s : State) (b : List Byte) : (s.hostLoad b).cfg = s.cfg := rfl
@[simp] theorem State.hostLoad_regs (s : State) (b : List Byte) : (s.hostLoad b).regs = [] := rfl
@[simp] theorem State.hostLoad_pc (s : State) (b : List Byte) : (s.hostLoad b).pc = 0 := rfl
@[simp] theorem State.hostLoad_prog (s : State) (b : List Byte) : (s.hostLoad b).prog = b := rfl
@[simp] theorem State.hostLoad_stack (s : State) (b : List Byte) : (s.hostLoad b).stack = s.stack := rfl
@[simp] theorem State.hostLoad_sp (s : State) (b : List Byte) : (s.hostLoad b).sp = s.sp := rfl
@[simp] theorem State.hostLoad_heap (s : State) (b : List Byte) : (s.hostLoad b).heap = s.heap := rfl
@[simp] theorem State.hostLoad_segs (s : State) (b : List Byte) : (s.hostLoad b).segs = s.segs := rfl
@[simp] theorem State.hostLoad_engine (s : State) (b : List Byte) : (s.hostLoad b).engine = .idle := rfl
@[simp] theorem State.hostLoad_output (s : State) (b : List Byte) : (s.hostLoad b).output = s.output := rfl
@[simp] theorem State.hostLoad_nanDraws (s : State) (b : List Byte) : (s.hostLoad b).nanDraws = s.nanDraws := rfl

@[simp] theorem State.hostRun_cfg (s : State) : (s.hostRun).cfg = s.cfg := rfl
@[simp] theorem State.hostRun_regs (s : State) : (s.hostRun).regs = s.regs := rfl
@[simp] theorem State.hostRun_pc (s : State) : (s.hostRun).pc = s.pc := rfl
@[simp] theorem State.hostRun_prog (s : State) : (s.hostRun).prog = s.prog := rfl
@[simp] theorem State.hostRun_stack (s : State) : (s.hostRun).stack = s.stack := rfl
@[simp] theorem State.hostRun_sp (s : State) : (s.hostRun).sp = s.sp := rfl
@[simp] theorem State.hostRun_heap (s : State) : (s.hostRun).heap = s.heap := rfl
@[simp] theorem State.hostRun_segs (s : State) : (s.hostRun).segs = s.segs := rfl
@[simp] theorem State.hostRun_engine (s : State) : (s.hostRun).engine = .running := rfl
@[simp] theorem State.hostRun_output (s : State) : (s.hostRun).output = s.output := rfl
@[simp] theorem State.hostRun_nanDraws (s : State) : (s.hostRun).nanDraws = s.nanDraws := rfl

@[simp] theorem State.writePlace_cfg (s : State) (p : Place) (v : Word) :
    (s.writePlace p v).cfg = s.cfg := by cases p <;> rfl
@[simp] theorem State.writePlace_regs (s : State) (p : Place) (v : Word) :
    (s.writePlace p v).regs = s.regs := by cases p <;> rfl
@[simp] theorem State.writePlace_pc (s : State) (p : Place) (v : Word) :
    (s.writePlace p v).pc = s.pc := by cases p <;> rfl
@[simp] theorem State.writePlace_prog (s : State) (p : Place) (v : Word) :
    (s.writePlace p v).prog = s.prog := by cases p <;> rfl
@[simp] theorem State.writePlace_stack_stack (s : State) (k : Nat) (v : Word) :
    (s.writePlace (.stack k) v).stack = s.stack.write k v := rfl
@[simp] theorem State.writePlace_heap_stack (s : State) (k : Nat) (v : Word) :
    (s.writePlace (.heap k) v).stack = s.stack := rfl
@[simp] theorem State.writePlace_sp (s : State) (p : Place) (v : Word) :
    (s.writePlace p v).sp = s.sp := by cases p <;> rfl
@[simp] theorem State.writePlace_heap_heap (s : State) (k : Nat) (v : Word) :
    (s.writePlace (.heap k) v).heap = s.heap.write k v := rfl
@[simp] theorem State.writePlace_stack_heap (s : State) (k : Nat) (v : Word) :
    (s.writePlace (.stack k) v).heap = s.heap := rfl
@[simp] theorem State.writePlace_segs (s : State) (p : Place) (v : Word) :
    (s.writePlace p v).segs = s.segs := by cases p <;> rfl
@[simp] theorem State.writePlace_engine (s : State) (p : Place) (v : Word) :
    (s.writePlace p v).engine = s.engine := by cases p <;> rfl
@[simp] theorem State.writePlace_output (s : State) (p : Place) (v : Word) :
    (s.writePlace p v).output = s.output := by cases p <;> rfl
@[simp] theorem State.writePlace_nanDraws (s : State) (p : Place) (v : Word) :
    (s.writePlace p v).nanDraws = s.nanDraws := by cases p <;> rfl

@[simp] theorem State.setFloat_cfg (s : State) (rd : RegField) (r : Option Word) :
    (s.setFloat rd r).cfg = s.cfg := by cases r <;> rfl
@[simp] theorem State.setFloat_regs_some (s : State) (rd : RegField) (v : Word) :
    (s.setFloat rd (some v)).regs = s.regs.write rd.toNat v := rfl
@[simp] theorem State.setFloat_regs_none (s : State) (rd : RegField) :
    (s.setFloat rd none).regs = s.regs.write rd.toNat (nanResult s.nanDraws) := rfl
@[simp] theorem State.setFloat_pc (s : State) (rd : RegField) (r : Option Word) :
    (s.setFloat rd r).pc = s.pc := by cases r <;> rfl
@[simp] theorem State.setFloat_prog (s : State) (rd : RegField) (r : Option Word) :
    (s.setFloat rd r).prog = s.prog := by cases r <;> rfl
@[simp] theorem State.setFloat_stack (s : State) (rd : RegField) (r : Option Word) :
    (s.setFloat rd r).stack = s.stack := by cases r <;> rfl
@[simp] theorem State.setFloat_sp (s : State) (rd : RegField) (r : Option Word) :
    (s.setFloat rd r).sp = s.sp := by cases r <;> rfl
@[simp] theorem State.setFloat_heap (s : State) (rd : RegField) (r : Option Word) :
    (s.setFloat rd r).heap = s.heap := by cases r <;> rfl
@[simp] theorem State.setFloat_segs (s : State) (rd : RegField) (r : Option Word) :
    (s.setFloat rd r).segs = s.segs := by cases r <;> rfl
@[simp] theorem State.setFloat_engine (s : State) (rd : RegField) (r : Option Word) :
    (s.setFloat rd r).engine = s.engine := by cases r <;> rfl
@[simp] theorem State.setFloat_output (s : State) (rd : RegField) (r : Option Word) :
    (s.setFloat rd r).output = s.output := by cases r <;> rfl
@[simp] theorem State.setFloat_nanDraws_some (s : State) (rd : RegField) (v : Word) :
    (s.setFloat rd (some v)).nanDraws = s.nanDraws := rfl
@[simp] theorem State.setFloat_nanDraws_none (s : State) (rd : RegField) :
    (s.setFloat rd none).nanDraws = s.nanDraws + 1 := rfl

/-- What the reset state holds in each field (R40). -/
theorem State.resetWith_fields (c : Config) :
    (State.resetWith c).cfg = c ∧ (State.resetWith c).regs = [] ∧ (State.resetWith c).pc = 0 ∧
      (State.resetWith c).prog = [] ∧ (State.resetWith c).stack = [] ∧ (State.resetWith c).sp = 0 ∧
      (State.resetWith c).heap = [] ∧ (State.resetWith c).segs = [⟨c.heapH - 1, 0⟩] ∧
      (State.resetWith c).engine = .idle ∧ (State.resetWith c).output = [] :=
  ⟨rfl, rfl, rfl, rfl, rfl, rfl, rfl, rfl, rfl, rfl⟩

end Sys2Proof.Machine
end

