-- ==== Sys2Proof/Laws/Ops.lean ====
section
/-! SUPPORT. What each shared operation can do, said once: registers, the field check, the unified data
space, relative jumps, float results. -/

namespace Sys2Proof.Machine

/-! ### Registers -/

@[simp] theorem State.reg_setReg_same (s : State) (r : RegField) (v : Word) : (s.setReg r v).reg r = v :=
  Memory.read_write_same _ _ _

theorem State.reg_setReg_other (s : State) {r q : RegField} (v : Word) (h : q ≠ r) :
    (s.setReg r v).reg q = s.reg q :=
  Memory.read_write_other _ v fun e => h (BitVec.toNat_inj.mp e)

@[simp] theorem State.reg_advance (s : State) (n : Nat) (r : RegField) : (s.advance n).reg r = s.reg r := rfl
@[simp] theorem State.reg_jumpTo (s : State) (w : Word) (r : RegField) : (s.jumpTo w).reg r = s.reg r := rfl
@[simp] theorem State.reg_raise (s : State) (k : FaultKind) (r : RegField) : (s.raise k).reg r = s.reg r := rfl
@[simp] theorem State.reg_haltSuccess (s : State) (r : RegField) : s.haltSuccess.reg r = s.reg r := rfl
@[simp] theorem State.reg_emit (s : State) (v : Word) (r : RegField) : (s.emit v).reg r = s.reg r := rfl
@[simp] theorem State.reg_setSlot (s : State) (k : Nat) (v : Word) (r : RegField) :
    (s.setSlot k v).reg r = s.reg r := rfl
@[simp] theorem State.reg_setSp (s : State) (n : Nat) (r : RegField) : (s.setSp n).reg r = s.reg r := rfl
@[simp] theorem State.reg_setSegs (s : State) (g : List Segment) (r : RegField) :
    (s.setSegs g).reg r = s.reg r := rfl
@[simp] theorem State.reg_writePlace (s : State) (p : Place) (v : Word) (r : RegField) :
    (s.writePlace p v).reg r = s.reg r := by cases p <;> rfl

/-! ### The register-field check -/

theorem State.fieldsOk_iff (s : State) (fields : List RegField) :
    s.fieldsOk fields = true ↔ ∀ f ∈ fields, f.toNat < s.cfg.nreg := by
  simp [State.fieldsOk]

theorem checkFields_ok {fields : List RegField} {s : State} (rule : Result) (h : s.fieldsOk fields = true) :
    checkFields fields s rule = rule := by
  simp [checkFields, h]

theorem checkFields_bad {fields : List RegField} {s : State} (rule : Result) (h : s.fieldsOk fields = false) :
    checkFields fields s rule = .next (s.raise .badRegister) := by
  simp [checkFields, h]

/-- Everything the field check can do. -/
theorem checkFields_cases {fields : List RegField} {s t : State} {rule : Result}
    (h : checkFields fields s rule = .next t) :
    (s.fieldsOk fields = true ∧ rule = .next t) ∨ (s.fieldsOk fields = false ∧ t = s.raise .badRegister) := by
  unfold checkFields at h
  split at h
  · next hok => exact .inl ⟨hok, h⟩
  · next hok => exact .inr ⟨by simpa using hok, by simpa using h.symm⟩

/-! ### The unified data space -/

/-- Everything address translation can answer (R51, R58). -/
theorem translate_cases (c : Config) (a : Nat) :
    (a < c.stackN ∧ translate c a = some (.stack a)) ∨
      (c.stackN ≤ a ∧ a < c.stackN + c.heapH ∧ translate c a = some (.heap (a - c.stackN))) ∨
      (c.stackN + c.heapH ≤ a ∧ translate c a = none) := by
  unfold translate
  by_cases h : a < c.stackN
  · simp [h]
  · by_cases h' : a - c.stackN < c.heapH
    · exact .inr (.inl ⟨by omega, by omega, by simp [h, h']⟩)
    · exact .inr (.inr ⟨by omega, by simp [h, h']⟩)

/-- Two addresses never reach one place. -/
theorem translate_inj {c : Config} {a b : Nat} {p : Place} (ha : translate c a = some p)
    (hb : translate c b = some p) : a = b := by
  rw [← hb] at ha
  rcases translate_cases c a with ⟨h1, e1⟩ | ⟨h1, h1', e1⟩ | ⟨h1, e1⟩ <;>
  rcases translate_cases c b with ⟨h2, e2⟩ | ⟨h2, h2', e2⟩ | ⟨h2, e2⟩ <;>
  simp only [e1, e2, Option.some.injEq, Place.stack.injEq, Place.heap.injEq, reduceCtorEq] at ha hb <;>
  omega

@[simp] theorem State.readPlace_writePlace_same (s : State) (p : Place) (v : Word) :
    (s.writePlace p v).readPlace p = v := by
  cases p <;> exact Memory.read_write_same _ _ _

theorem State.readPlace_writePlace_other (s : State) {p q : Place} (v : Word) (h : q ≠ p) :
    (s.writePlace p v).readPlace q = s.readPlace q := by
  cases p <;> cases q <;> first
    | rfl
    | exact Memory.read_write_other _ v fun e => h (by rw [e])

/-- Everything MemWrite can do: the address reaches a place, and that place takes the value. -/
theorem State.memWrite_cases {s t : State} {a : Nat} {v : Word} (h : s.memWrite a v = some t) :
    ∃ p, translate s.cfg a = some p ∧ t = s.writePlace p v := by
  unfold State.memWrite at h
  obtain ⟨p, hp, rfl⟩ := Option.map_eq_some_iff.mp h
  exact ⟨p, hp, rfl⟩

/-- What MemRead of any address depends on: the parameters, the stack and the arena. -/
theorem State.memRead_congr {s t : State} (hc : t.cfg = s.cfg) (hs : t.stack = s.stack) (hh : t.heap = s.heap)
    (a : Nat) : t.memRead a = s.memRead a := by
  unfold State.memRead
  rw [hc]
  congr 1
  funext p
  cases p <;> simp [State.readPlace, hs, hh]

/-! ### Relative jumps -/

/-- Everything a relative jump can do (R170 item 1). -/
theorem jumpRelative_cases {target : Int} {s t : State} (h : jumpRelative target s = .next t) :
    (0 ≤ target ∧ target < 2 ^ 32 ∧ t = s.jumpTo (u32 target)) ∨
      ((target < 0 ∨ 2 ^ 32 ≤ target) ∧ t = s.raise .badJumpTarget) := by
  unfold jumpRelative at h
  split at h
  · next hb => exact .inr ⟨hb, by simpa using h.symm⟩
  · next hb => exact .inl ⟨by omega, by omega, by simpa using h.symm⟩

/-! ### Float results -/

/-- Everything a float result can do to the state. -/
theorem State.setFloat_cases (s : State) (rd : RegField) (r : Option Word) :
    (∃ v, r = some v ∧ s.setFloat rd r = s.setReg rd v) ∨
      (r = none ∧
        s.setFloat rd r = { s.setReg rd (nanResult s.nanDraws) with nanDraws := s.nanDraws + 1 }) := by
  cases r with
  | some v => exact .inl ⟨v, rfl, rfl⟩
  | none => exact .inr ⟨rfl, rfl⟩

/-- Bits 30 to 22 of every drawn NaN are set, whatever the free value is (R9, R140 item 5). -/
theorem nanResult_getLsbD (k i : Nat) (h : 22 ≤ i) (h' : i ≤ 30) : (nanResult k).getLsbD i = true := by
  unfold nanResult
  simp only [BitVec.getLsbD_append]
  interval_cases i <;> simp

end Sys2Proof.Machine
end

