-- ==== Sys2Proof/Laws/PerInstr.lean ====
section
/-! SUPPORT. Statements about every instruction as syntax, one lemma per constructor: the width of its
encoding, and its opcode byte. -/

/-- The encoding has the instruction's width (spec/30_encoding.md R83, R89). -/
def Sys2Proof.Laws.EncodeWidth.Statement (i : Sys2Proof.Instr) : Prop :=
  (Sys2Proof.encode i).length = i.width

/-- The encoding begins with an opcode byte below 46, and that byte alone gives the width (R82, R89). -/
def Sys2Proof.Laws.EncodeOpcode.Statement (i : Sys2Proof.Instr) : Prop :=
  ∃ op rest, Sys2Proof.encode i = op :: rest ∧ op.toNat < 46 ∧ Sys2Proof.widthOfOpcode op = i.width

namespace Sys2Proof.Laws

theorem EncodeWidth.load (rd : RegField) (imm : Word) : EncodeWidth.Statement (.load rd imm) := rfl
theorem EncodeWidth.inc (r : RegField) : EncodeWidth.Statement (.inc r) := rfl
theorem EncodeWidth.dec (r : RegField) : EncodeWidth.Statement (.dec r) := rfl
theorem EncodeWidth.add (ra rb rd : RegField) : EncodeWidth.Statement (.add ra rb rd) := rfl
theorem EncodeWidth.sub (ra rb rd : RegField) : EncodeWidth.Statement (.sub ra rb rd) := rfl
theorem EncodeWidth.mul (ra rb rd : RegField) : EncodeWidth.Statement (.mul ra rb rd) := rfl
theorem EncodeWidth.div (ra rb rd : RegField) : EncodeWidth.Statement (.div ra rb rd) := rfl
theorem EncodeWidth.mod (ra rb rd : RegField) : EncodeWidth.Statement (.mod ra rb rd) := rfl
theorem EncodeWidth.fadd (ra rb rd : RegField) : EncodeWidth.Statement (.fadd ra rb rd) := rfl
theorem EncodeWidth.fsub (ra rb rd : RegField) : EncodeWidth.Statement (.fsub ra rb rd) := rfl
theorem EncodeWidth.fmul (ra rb rd : RegField) : EncodeWidth.Statement (.fmul ra rb rd) := rfl
theorem EncodeWidth.fdiv (ra rb rd : RegField) : EncodeWidth.Statement (.fdiv ra rb rd) := rfl
theorem EncodeWidth.eq (ra rb rd : RegField) : EncodeWidth.Statement (.eq ra rb rd) := rfl
theorem EncodeWidth.ne (ra rb rd : RegField) : EncodeWidth.Statement (.ne ra rb rd) := rfl
theorem EncodeWidth.gt (ra rb rd : RegField) : EncodeWidth.Statement (.gt ra rb rd) := rfl
theorem EncodeWidth.lt (ra rb rd : RegField) : EncodeWidth.Statement (.lt ra rb rd) := rfl
theorem EncodeWidth.gtq (ra rb rd : RegField) : EncodeWidth.Statement (.gtq ra rb rd) := rfl
theorem EncodeWidth.ltq (ra rb rd : RegField) : EncodeWidth.Statement (.ltq ra rb rd) := rfl
theorem EncodeWidth.feq (ra rb rd : RegField) : EncodeWidth.Statement (.feq ra rb rd) := rfl
theorem EncodeWidth.fne (ra rb rd : RegField) : EncodeWidth.Statement (.fne ra rb rd) := rfl
theorem EncodeWidth.fgt (ra rb rd : RegField) : EncodeWidth.Statement (.fgt ra rb rd) := rfl
theorem EncodeWidth.flt (ra rb rd : RegField) : EncodeWidth.Statement (.flt ra rb rd) := rfl
theorem EncodeWidth.fgtq (ra rb rd : RegField) : EncodeWidth.Statement (.fgtq ra rb rd) := rfl
theorem EncodeWidth.fltq (ra rb rd : RegField) : EncodeWidth.Statement (.fltq ra rb rd) := rfl
theorem EncodeWidth.jmp (r : RegField) : EncodeWidth.Statement (.jmp r) := rfl
theorem EncodeWidth.jmpf (r : RegField) : EncodeWidth.Statement (.jmpf r) := rfl
theorem EncodeWidth.jmpb (r : RegField) : EncodeWidth.Statement (.jmpb r) := rfl
theorem EncodeWidth.jeq (a b : RegField) : EncodeWidth.Statement (.jeq a b) := rfl
theorem EncodeWidth.jne (a b : RegField) : EncodeWidth.Statement (.jne a b) := rfl
theorem EncodeWidth.push (r : RegField) : EncodeWidth.Statement (.push r) := rfl
theorem EncodeWidth.spush (r : RegField) : EncodeWidth.Statement (.spush r) := rfl
theorem EncodeWidth.pop (r : RegField) : EncodeWidth.Statement (.pop r) := rfl
theorem EncodeWidth.spop (r : RegField) : EncodeWidth.Statement (.spop r) := rfl
theorem EncodeWidth.read (addr dst : RegField) : EncodeWidth.Statement (.read addr dst) := rfl
theorem EncodeWidth.write (src addr : RegField) : EncodeWidth.Statement (.write src addr) := rfl
theorem EncodeWidth.malloc (size dst : RegField) : EncodeWidth.Statement (.malloc size dst) := rfl
theorem EncodeWidth.free (ptr : RegField) : EncodeWidth.Statement (.free ptr) := rfl
theorem EncodeWidth.ftoi (src dst : RegField) : EncodeWidth.Statement (.ftoi src dst) := rfl
theorem EncodeWidth.itof (src dst : RegField) : EncodeWidth.Statement (.itof src dst) := rfl
theorem EncodeWidth.i32 (src dst : RegField) : EncodeWidth.Statement (.i32 src dst) := rfl
theorem EncodeWidth.f32 (src dst : RegField) : EncodeWidth.Statement (.f32 src dst) := rfl
theorem EncodeWidth.hlt : EncodeWidth.Statement .hlt := rfl
theorem EncodeWidth.print (r : RegField) : EncodeWidth.Statement (.print r) := rfl
theorem EncodeWidth.mov (src dst : RegField) : EncodeWidth.Statement (.mov src dst) := rfl
theorem EncodeWidth.sread (b1 b2 : Byte) : EncodeWidth.Statement (.sread b1 b2) := rfl
theorem EncodeWidth.swrite (b1 b2 : Byte) : EncodeWidth.Statement (.swrite b1 b2) := rfl

theorem EncodeOpcode.load (rd : RegField) (imm : Word) : EncodeOpcode.Statement (.load rd imm) := ⟨_, _, rfl, by decide, rfl⟩
theorem EncodeOpcode.inc (r : RegField) : EncodeOpcode.Statement (.inc r) := ⟨_, _, rfl, by decide, rfl⟩
theorem EncodeOpcode.dec (r : RegField) : EncodeOpcode.Statement (.dec r) := ⟨_, _, rfl, by decide, rfl⟩
theorem EncodeOpcode.add (ra rb rd : RegField) : EncodeOpcode.Statement (.add ra rb rd) := ⟨_, _, rfl, by decide, rfl⟩
theorem EncodeOpcode.sub (ra rb rd : RegField) : EncodeOpcode.Statement (.sub ra rb rd) := ⟨_, _, rfl, by decide, rfl⟩
theorem EncodeOpcode.mul (ra rb rd : RegField) : EncodeOpcode.Statement (.mul ra rb rd) := ⟨_, _, rfl, by decide, rfl⟩
theorem EncodeOpcode.div (ra rb rd : RegField) : EncodeOpcode.Statement (.div ra rb rd) := ⟨_, _, rfl, by decide, rfl⟩
theorem EncodeOpcode.mod (ra rb rd : RegField) : EncodeOpcode.Statement (.mod ra rb rd) := ⟨_, _, rfl, by decide, rfl⟩
theorem EncodeOpcode.fadd (ra rb rd : RegField) : EncodeOpcode.Statement (.fadd ra rb rd) := ⟨_, _, rfl, by decide, rfl⟩
theorem EncodeOpcode.fsub (ra rb rd : RegField) : EncodeOpcode.Statement (.fsub ra rb rd) := ⟨_, _, rfl, by decide, rfl⟩
theorem EncodeOpcode.fmul (ra rb rd : RegField) : EncodeOpcode.Statement (.fmul ra rb rd) := ⟨_, _, rfl, by decide, rfl⟩
theorem EncodeOpcode.fdiv (ra rb rd : RegField) : EncodeOpcode.Statement (.fdiv ra rb rd) := ⟨_, _, rfl, by decide, rfl⟩
theorem EncodeOpcode.eq (ra rb rd : RegField) : EncodeOpcode.Statement (.eq ra rb rd) := ⟨_, _, rfl, by decide, rfl⟩
theorem EncodeOpcode.ne (ra rb rd : RegField) : EncodeOpcode.Statement (.ne ra rb rd) := ⟨_, _, rfl, by decide, rfl⟩
theorem EncodeOpcode.gt (ra rb rd : RegField) : EncodeOpcode.Statement (.gt ra rb rd) := ⟨_, _, rfl, by decide, rfl⟩
theorem EncodeOpcode.lt (ra rb rd : RegField) : EncodeOpcode.Statement (.lt ra rb rd) := ⟨_, _, rfl, by decide, rfl⟩
theorem EncodeOpcode.gtq (ra rb rd : RegField) : EncodeOpcode.Statement (.gtq ra rb rd) := ⟨_, _, rfl, by decide, rfl⟩
theorem EncodeOpcode.ltq (ra rb rd : RegField) : EncodeOpcode.Statement (.ltq ra rb rd) := ⟨_, _, rfl, by decide, rfl⟩
theorem EncodeOpcode.feq (ra rb rd : RegField) : EncodeOpcode.Statement (.feq ra rb rd) := ⟨_, _, rfl, by decide, rfl⟩
theorem EncodeOpcode.fne (ra rb rd : RegField) : EncodeOpcode.Statement (.fne ra rb rd) := ⟨_, _, rfl, by decide, rfl⟩
theorem EncodeOpcode.fgt (ra rb rd : RegField) : EncodeOpcode.Statement (.fgt ra rb rd) := ⟨_, _, rfl, by decide, rfl⟩
theorem EncodeOpcode.flt (ra rb rd : RegField) : EncodeOpcode.Statement (.flt ra rb rd) := ⟨_, _, rfl, by decide, rfl⟩
theorem EncodeOpcode.fgtq (ra rb rd : RegField) : EncodeOpcode.Statement (.fgtq ra rb rd) := ⟨_, _, rfl, by decide, rfl⟩
theorem EncodeOpcode.fltq (ra rb rd : RegField) : EncodeOpcode.Statement (.fltq ra rb rd) := ⟨_, _, rfl, by decide, rfl⟩
theorem EncodeOpcode.jmp (r : RegField) : EncodeOpcode.Statement (.jmp r) := ⟨_, _, rfl, by decide, rfl⟩
theorem EncodeOpcode.jmpf (r : RegField) : EncodeOpcode.Statement (.jmpf r) := ⟨_, _, rfl, by decide, rfl⟩
theorem EncodeOpcode.jmpb (r : RegField) : EncodeOpcode.Statement (.jmpb r) := ⟨_, _, rfl, by decide, rfl⟩
theorem EncodeOpcode.jeq (a b : RegField) : EncodeOpcode.Statement (.jeq a b) := ⟨_, _, rfl, by decide, rfl⟩
theorem EncodeOpcode.jne (a b : RegField) : EncodeOpcode.Statement (.jne a b) := ⟨_, _, rfl, by decide, rfl⟩
theorem EncodeOpcode.push (r : RegField) : EncodeOpcode.Statement (.push r) := ⟨_, _, rfl, by decide, rfl⟩
theorem EncodeOpcode.spush (r : RegField) : EncodeOpcode.Statement (.spush r) := ⟨_, _, rfl, by decide, rfl⟩
theorem EncodeOpcode.pop (r : RegField) : EncodeOpcode.Statement (.pop r) := ⟨_, _, rfl, by decide, rfl⟩
theorem EncodeOpcode.spop (r : RegField) : EncodeOpcode.Statement (.spop r) := ⟨_, _, rfl, by decide, rfl⟩
theorem EncodeOpcode.read (addr dst : RegField) : EncodeOpcode.Statement (.read addr dst) := ⟨_, _, rfl, by decide, rfl⟩
theorem EncodeOpcode.write (src addr : RegField) : EncodeOpcode.Statement (.write src addr) := ⟨_, _, rfl, by decide, rfl⟩
theorem EncodeOpcode.malloc (size dst : RegField) : EncodeOpcode.Statement (.malloc size dst) := ⟨_, _, rfl, by decide, rfl⟩
theorem EncodeOpcode.free (ptr : RegField) : EncodeOpcode.Statement (.free ptr) := ⟨_, _, rfl, by decide, rfl⟩
theorem EncodeOpcode.ftoi (src dst : RegField) : EncodeOpcode.Statement (.ftoi src dst) := ⟨_, _, rfl, by decide, rfl⟩
theorem EncodeOpcode.itof (src dst : RegField) : EncodeOpcode.Statement (.itof src dst) := ⟨_, _, rfl, by decide, rfl⟩
theorem EncodeOpcode.i32 (src dst : RegField) : EncodeOpcode.Statement (.i32 src dst) := ⟨_, _, rfl, by decide, rfl⟩
theorem EncodeOpcode.f32 (src dst : RegField) : EncodeOpcode.Statement (.f32 src dst) := ⟨_, _, rfl, by decide, rfl⟩
theorem EncodeOpcode.hlt : EncodeOpcode.Statement .hlt := ⟨_, _, rfl, by decide, rfl⟩
theorem EncodeOpcode.print (r : RegField) : EncodeOpcode.Statement (.print r) := ⟨_, _, rfl, by decide, rfl⟩
theorem EncodeOpcode.mov (src dst : RegField) : EncodeOpcode.Statement (.mov src dst) := ⟨_, _, rfl, by decide, rfl⟩
theorem EncodeOpcode.sread (b1 b2 : Byte) : EncodeOpcode.Statement (.sread b1 b2) := ⟨_, _, rfl, by decide, rfl⟩
theorem EncodeOpcode.swrite (b1 b2 : Byte) : EncodeOpcode.Statement (.swrite b1 b2) := ⟨_, _, rfl, by decide, rfl⟩

end Sys2Proof.Laws
end

