-- ==== Sys2Proof/Laws/Safety.lean ====
section
/-! SUPPORT. The shared operations in the terms of Safety.lean: what taking a fault and retiring a
register keep, and how large a finite datum is. -/

namespace Sys2Proof.Machine

/-- Taking a fault changes STATUS alone (R240, R242). -/
theorem State.raise_faultStep (s : State) (k : FaultKind) : FaultStep s (s.raise k) k := by
  refine ⟨rfl, ?_, rfl⟩
  cases k <;> simp [State.statusWord, Engine.stateField, Engine.kindField, FaultKind.code, State.raise]

/-- Equal fields, equal words of the unified space. -/
theorem RestKept.of_fields {s t : State} (hc : t.cfg = s.cfg) (hp : t.prog = s.prog) (hsp : t.sp = s.sp)
    (hg : t.segs = s.segs) (he : t.engine = s.engine) (ho : t.output = s.output) (hs : t.stack = s.stack)
    (hh : t.heap = s.heap) : RestKept s t :=
  ⟨hc, hp, hsp, hg, he, ho, hs, hh, fun a => State.memRead_congr hc hs hh a⟩

/-- A register write and the move to npc are a register step. -/
theorem State.setReg_registerStep (s : State) (rd : RegField) (v : Word) (width : Nat) :
    RegisterStep s ((s.setReg rd v).advance width) rd v width :=
  ⟨State.reg_setReg_same _ _ _, fun _ h => State.reg_setReg_other _ _ h, rfl, rfl,
    RestKept.of_fields rfl rfl rfl rfl rfl rfl rfl rfl⟩

/-- A pattern's finite magnitude is below 2^128, in units of 2^-149 (R9). -/
theorem f32_finite_lt {w : Word} {neg : Bool} {mag : Nat} (h : f32 w = .finite neg mag) :
    mag < 2 ^ 128 * unitsPerOne := by
  have hfrac : w.toNat % 2 ^ 23 < 2 ^ 23 := Nat.mod_lt _ (by norm_num)
  have hexp : w.toNat / 2 ^ 23 % 256 < 256 := Nat.mod_lt _ (by norm_num)
  have hunit : 2 ^ 24 * 2 ^ 253 = 2 ^ 128 * unitsPerOne := by unfold unitsPerOne; norm_num
  unfold f32 at h
  dsimp only at h
  split at h
  · split at h <;> simp at h
  · split at h
    · obtain ⟨-, rfl⟩ := Datum.finite.inj h
      rw [← hunit]
      exact hfrac.trans_le (by norm_num)
    · obtain ⟨-, rfl⟩ := Datum.finite.inj h
      rw [← hunit]
      calc _ ≤ (2 ^ 23 + w.toNat % 2 ^ 23) * 2 ^ 253 :=
            Nat.mul_le_mul_left _ (Nat.pow_le_pow_right (by norm_num) (by omega))
        _ < _ := Nat.mul_lt_mul_of_pos_right (by omega) (by positivity)

end Sys2Proof.Machine
end

