-- ==== Sys2Proof/Laws/Step.lean ====
section
/-! SUPPORT. What one step can do, said once. -/

namespace Sys2Proof.Machine

/-- Everything one step can do (R97, R274). -/
theorem step_cases {s t : State} (h : step s = .next t) :
    (s.engine ≠ .running ∧ t = s) ∨
      (s.engine = .running ∧
        ((s.fetch = .endOfProgram ∧ t = s.endOfProgram) ∨
          (s.fetch = .illegalOpcode ∧ t = s.raise .illegalOpcode) ∨
          (s.fetch = .truncated ∧ t = s.raise .truncatedInstruction) ∨
          ∃ i, s.fetch = .instr i ∧ exec i s = .next t)) := by
  unfold step at h
  split at h
  case h_4 he =>
    refine .inr ⟨he, ?_⟩
    split at h
    · next hf => exact .inl ⟨hf, by simpa using h.symm⟩
    · next hf => exact .inr (.inl ⟨hf, by simpa using h.symm⟩)
    · next hf => exact .inr (.inr (.inl ⟨hf, by simpa using h.symm⟩))
    · next i hf => exact .inr (.inr (.inr ⟨i, hf, h⟩))
  all_goals
    next he => exact .inl ⟨by simp [he], by simpa using h.symm⟩

/-- The bytes at pc are gone exactly when pc is at or past the end of the program. -/
theorem State.bytesAtPc_eq_nil (s : State) : s.bytesAtPc = [] ↔ s.progLen ≤ s.pc.toNat := by
  simp [State.bytesAtPc, State.progLen]

/-- The byte at pc heads the bytes at pc. -/
theorem State.bytesAtPc_cons {s : State} {op : Byte} (h : s.prog[s.pc.toNat]? = some op) :
    s.bytesAtPc = op :: s.prog.drop (s.pc.toNat + 1) := by
  obtain ⟨hlt, rfl⟩ := List.getElem?_eq_some_iff.mp h
  exact List.drop_eq_getElem_cons hlt

end Sys2Proof.Machine
end

