-- ==== Sys2Proof/Tests/Slice0.lean ====
section
/-! SUPPORT. Tests of the model. Expected values come from spec/95_test_vectors.md (the vector's id stands
before the test) or from the rule named there. The second half holds, for every obligation with
hypotheses, a state and operands that meet them. -/

namespace Sys2Proof.Tests

open Sys2Proof Sys2Proof.Machine

-- One theorem after another: a thread for each at once asks for more stack than a check grants.
set_option Elab.async false

/-- The answer is a next state of which `f` holds. -/
def answers (r : Host.Outcome State Fault Refusal) (f : State → Bool) : Bool :=
  match r with
  | .next t => f t
  | .fault _ | .refused _ => false

/-- A running engine at offset 0 with these registers. -/
def running (regs : Memory) : State := { State.reset with engine := .running, regs := regs }

/-- A running engine at offset 0 of this program. -/
def loaded (bytes : List Byte) : State := { State.reset with engine := .running, prog := bytes }

/-- A running engine with x[0] and x[1]. -/
def pair (a b : Word) : State := running [(0, a), (1, b)]

/-- x[2] of a three-register instruction on x[0] and x[1] is `v`, at pc 4, still Running. -/
def gives (i : Instr) (a b v : Word) : Bool :=
  answers (exec i (pair a b)) fun t => t.reg 2 == v && t.pc == 4 && t.statusWord == 1

/-- x[1] of a conversion of x[0] is `v`. -/
def converts (i : Instr) (a v : Word) : Bool :=
  answers (exec i (running [(0, a)])) fun t => t.reg 1 == v && t.pc == 4

/-- The instruction raises the fault of code `code` at offset 0 and changes nothing else. -/
def faults (i : Instr) (s : State) (code : Nat) : Bool :=
  answers (exec i s) fun t =>
    t.statusWord == BitVec.ofNat 32 (3 + 16 * code) && decide ({ t with engine := s.engine } = s)

/-! ### Well-formedness and parameters -/

/-- VL5: register 32 of 32. -/
theorem test_load_field_32_is_ill_formed : (Instr.load 32 0).wellFormed Config.default = false := by decide +kernel
theorem test_first_field_is_checked : (Instr.add 32 1 2).wellFormed Config.default = false := by decide +kernel
theorem test_second_field_is_checked : (Instr.add 0 255 2).wellFormed Config.default = false := by decide +kernel
/-- VD7. -/
theorem test_third_field_is_checked : (Instr.add 0 1 32).wellFormed Config.default = false := by decide +kernel
theorem test_field_31_is_well_formed : (Instr.add 31 31 31).wellFormed Config.default = true := by decide +kernel
/-- VM12: SREAD's fields are not checked. -/
theorem test_sread_is_well_formed : (Instr.sread 40 41).wellFormed Config.default = true := by decide +kernel
theorem test_default_parameters_are_valid : Config.default.valid = true := by decide +kernel
theorem test_257_registers_are_not_valid : { Config.default with nreg := 257 }.valid = false := by decide +kernel
theorem test_empty_arena_is_not_valid : { Config.default with heapH := 0 }.valid = false := by decide +kernel
theorem test_no_segment_entry_is_not_valid : { Config.default with segCap := 0 }.valid = false := by decide +kernel
theorem test_space_above_32_bits_is_not_valid :
    { Config.default with heapH := 2 ^ 32 - 255 }.valid = false := by decide +kernel

/-! ### Decoding: words written out from R81 and R82, family by family -/

/-- VL1. -/
theorem test_decode_load :
    decode [0x00, 0x03, 0xEF, 0xBE, 0xAD, 0xDE, 0x00, 0x00] = .instr (.load 3 0xDEADBEEF) := by decide +kernel
/-- VL3: padding is not looked at. -/
theorem test_decode_load_padding :
    decode [0x00, 0x03, 0x01, 0x00, 0x00, 0x00, 0xFF, 0xFF] = .instr (.load 3 1) := by decide +kernel

/-- Format R1, one word each. -/
theorem test_decode_r1 :
    decode [0x01, 0x05, 0, 0] = .instr (.inc 5) ∧ decode [0x02, 0x05, 0, 0] = .instr (.dec 5) ∧
      decode [0x18, 0x05, 0, 0] = .instr (.jmp 5) ∧ decode [0x19, 0x01, 0, 0] = .instr (.jmpf 1) ∧
      decode [0x1A, 0x02, 0, 0] = .instr (.jmpb 2) ∧ decode [0x1D, 0x00, 0, 0] = .instr (.push 0) ∧
      decode [0x1E, 0x04, 0, 0] = .instr (.spush 4) ∧ decode [0x1F, 0x01, 0, 0] = .instr (.pop 1) ∧
      decode [0x20, 0x04, 0, 0] = .instr (.spop 4) ∧ decode [0x24, 0x01, 0, 0] = .instr (.free 1) ∧
      decode [0x29, 0xFF, 0, 0] = .instr .hlt ∧ decode [0x2A, 0x02, 0, 0] = .instr (.print 2) := by decide +kernel

/-- Format R2, one word each: the first field is b1. -/
theorem test_decode_r2 :
    decode [0x1B, 0x00, 0x03, 0] = .instr (.jeq 0 3) ∧ decode [0x1C, 0x00, 0x03, 0] = .instr (.jne 0 3) ∧
      decode [0x21, 0x01, 0x02, 0] = .instr (.read 1 2) ∧
      decode [0x22, 0x02, 0x01, 0] = .instr (.write 2 1) ∧
      decode [0x23, 0x00, 0x01, 0] = .instr (.malloc 0 1) ∧
      decode [0x25, 0x02, 0x03, 0] = .instr (.ftoi 2 3) ∧
      decode [0x26, 0x03, 0x04, 0] = .instr (.itof 3 4) ∧
      decode [0x27, 0x03, 0x04, 0] = .instr (.i32 3 4) ∧
      decode [0x28, 0x03, 0x04, 0] = .instr (.f32 3 4) ∧
      decode [0x2B, 0x00, 0x07, 0] = .instr (.mov 0 7) ∧
      decode [0x2C, 0x28, 0x29, 0] = .instr (.sread 40 41) ∧
      decode [0x2D, 0x00, 0x01, 0] = .instr (.swrite 0 1) := by decide +kernel

/-- Format R3, integer arithmetic and comparisons: sources b1 and b2, destination b3. -/
theorem test_decode_r3_integer :
    decode [0x03, 0, 1, 2] = .instr (.add 0 1 2) ∧ decode [0x04, 0, 1, 2] = .instr (.sub 0 1 2) ∧
      decode [0x05, 0, 1, 2] = .instr (.mul 0 1 2) ∧ decode [0x06, 2, 1, 4] = .instr (.div 2 1 4) ∧
      decode [0x07, 0, 1, 2] = .instr (.mod 0 1 2) ∧ decode [0x0C, 0, 1, 2] = .instr (.eq 0 1 2) ∧
      decode [0x0D, 0, 1, 2] = .instr (.ne 0 1 2) ∧ decode [0x0E, 0, 1, 2] = .instr (.gt 0 1 2) ∧
      decode [0x0F, 0, 1, 2] = .instr (.lt 0 1 2) ∧ decode [0x10, 0, 1, 2] = .instr (.gtq 0 1 2) ∧
      decode [0x11, 0, 1, 2] = .instr (.ltq 0 1 2) := by decide +kernel

/-- Format R3, float arithmetic and comparisons. -/
theorem test_decode_r3_float :
    decode [0x08, 0, 1, 2] = .instr (.fadd 0 1 2) ∧ decode [0x09, 0, 1, 2] = .instr (.fsub 0 1 2) ∧
      decode [0x0A, 0, 1, 2] = .instr (.fmul 0 1 2) ∧ decode [0x0B, 0, 6, 7] = .instr (.fdiv 0 6 7) ∧
      decode [0x12, 2, 4, 5] = .instr (.feq 2 4 5) ∧ decode [0x13, 0, 1, 2] = .instr (.fne 0 1 2) ∧
      decode [0x14, 0, 1, 2] = .instr (.fgt 0 1 2) ∧ decode [0x15, 0, 1, 2] = .instr (.flt 0 1 2) ∧
      decode [0x16, 0, 1, 2] = .instr (.fgtq 0 1 2) ∧ decode [0x17, 0, 1, 2] = .instr (.fltq 0 1 2) := by decide +kernel

/-- VD1 to VD6: the outcomes that are no instruction. -/
theorem test_decode_outcomes :
    decode [] = .endOfProgram ∧ decode [0x2E, 0, 0, 0] = .illegalOpcode ∧ decode [0xFF] = .illegalOpcode ∧
      decode [0x03, 0, 1] = .truncated ∧ decode [0, 0, 5, 0, 0, 0, 0] = .truncated ∧
      decode [0x29] = .truncated := by decide +kernel

/-- The table numbers bit 0 as the least significant bit of the first byte. -/
theorem test_decode_table_word :
    decodeTableWord 32 0x02010003 = some (.add 0 1 2) ∧ decodeTableWord 48 0xDEADBEEF0300 = some (.load 3 0xDEADBEEF) ∧
      decodeTableWord 8 0x2E = none := by decide +kernel

/-- A placed word is what the next step runs. -/
theorem test_withFetchWord_runs :
    answers (step (State.reset.withFetchWord 32 0x00000001)) (fun t => t.reg 0 == 1 && t.pc == 4) = true := by decide +kernel

theorem test_encode_writes_zero_padding :
    encode (.load 3 0xDEADBEEF) = [0x00, 0x03, 0xEF, 0xBE, 0xAD, 0xDE, 0x00, 0x00] ∧
      encode (.mov 0 7) = [0x2B, 0x00, 0x07, 0x00] ∧ encode .hlt = [0x29, 0x00, 0x00, 0x00] := by decide +kernel

/-! ### LOAD and integer arithmetic -/

/-- VL1. -/
theorem test_load : answers (exec (.load 3 0xDEADBEEF) (running []))
    (fun t => t.reg 3 == 0xDEADBEEF && t.pc == 8 && t.statusWord == 1) = true := by decide +kernel
/-- VL5. -/
theorem test_load_bad_register : faults (.load 32 0) (running []) 8 = true := by decide +kernel
/-- VI1. -/
theorem test_inc_wraps : answers (exec (.inc 0) (running [(0, 0x7FFFFFFF)]))
    (fun t => t.reg 0 == 0x80000000 && t.pc == 4) = true := by decide +kernel
/-- VI3. -/
theorem test_dec_wraps : answers (exec (.dec 0) (running []))
    (fun t => t.reg 0 == 0xFFFFFFFF && t.pc == 4) = true := by decide +kernel
/-- VI6. -/
theorem test_add_wraps : gives (.add 0 1 2) 0x7FFFFFFF 1 0x80000000 = true := by decide +kernel
/-- VI7: the destination is both sources. -/
theorem test_add_aliases : answers (exec (.add 0 0 0) (running [(0, 4)])) (fun t => t.reg 0 == 8) = true := by decide +kernel
/-- VI8. -/
theorem test_sub_is_b1_minus_b2 : gives (.sub 0 1 2) 3 5 0xFFFFFFFE = true := by decide +kernel
/-- VI9. -/
theorem test_sub_wraps : gives (.sub 0 1 2) 0x80000000 1 0x7FFFFFFF = true := by decide +kernel
/-- VI10. -/
theorem test_mul_keeps_the_low_word : gives (.mul 0 1 2) 0x00010000 0x00010000 0 = true := by decide +kernel
/-- VI11. -/
theorem test_mul_negative : gives (.mul 0 1 2) 0xFFFFFFFD 7 0xFFFFFFEB = true := by decide +kernel
/-- VI14, VI17. -/
theorem test_div_truncates_and_wraps :
    gives (.div 0 1 2) 0xFFFFFFF9 2 0xFFFFFFFD = true ∧
      gives (.div 0 1 2) 0x80000000 0xFFFFFFFF 0x80000000 = true := by decide +kernel
/-- VI20. -/
theorem test_mod_takes_the_dividend_sign : gives (.mod 0 1 2) 0xFFFFFFF9 2 0xFFFFFFFF = true := by decide +kernel
/-- VI23. -/
theorem test_mod_by_zero : faults (.mod 0 1 2) (pair 7 0) 4 = true := by decide +kernel
/-- VD8: BadRegister comes before DivideByZero. -/
theorem test_bad_register_before_divide_by_zero : faults (.div 0 1 32) (pair 5 0) 8 = true := by decide +kernel

/-! ### Floating point -/

/-- VF2: 0.1 + 0.2. -/
theorem test_fadd_rounds : gives (.fadd 0 1 2) 0x3DCCCCCD 0x3E4CCCCD 0x3E99999A = true := by decide +kernel
/-- VF5. -/
theorem test_fadd_overflows : gives (.fadd 0 1 2) 0x7F7FFFFF 0x7F7FFFFF 0x7F800000 = true := by decide +kernel
/-- VF8. -/
theorem test_fsub : gives (.fsub 0 1 2) 0x40400000 0x3F800000 0x40000000 = true := by decide +kernel
/-- VF9. -/
theorem test_fsub_exact_zero_is_positive : gives (.fsub 0 1 2) 0x3F800000 0x3F800000 0 = true := by
  decide +kernel
/-- VF11. -/
theorem test_fmul_sign : gives (.fmul 0 1 2) 0xC0000000 0x40400000 0xC0C00000 = true := by decide +kernel
/-- VF13. -/
theorem test_fmul_underflows : gives (.fmul 0 1 2) 0x00800000 0x00800000 0 = true := by decide +kernel
/-- VF14: 1/3. -/
theorem test_fdiv_rounds : gives (.fdiv 0 1 2) 0x3F800000 0x40400000 0x3EAAAAAB = true := by decide +kernel
/-- VF16. -/
theorem test_fdiv_by_minus_zero : gives (.fdiv 0 1 2) 0x3F800000 0x80000000 0xFF800000 = true := by
  decide +kernel
/-- VF7, VF12, VF17: these are NaN results. -/
theorem test_invalid_operations :
    floatAdd (f32 0x7F800000) (f32 0xFF800000) = none ∧ floatMul (f32 0) (f32 0x7F800000) = none ∧
      floatDiv (f32 0) (f32 0) = none := by decide +kernel

/-! ### Comparisons -/

/-- VC2. -/
theorem test_eq_raw_patterns : gives (.eq 0 1 2) 0 0x80000000 0 = true := by decide +kernel
/-- VC13. -/
theorem test_eq_aliases : answers (exec (.eq 0 0 0) (running [(0, 9)])) (fun t => t.reg 0 == 1) = true := by decide +kernel
/-- VC4. -/
theorem test_ne : gives (.ne 0 1 2) 5 6 1 = true := by decide +kernel
/-- VC5. -/
theorem test_gt_is_signed : gives (.gt 0 1 2) 0xFFFFFFFF 1 0 = true := by decide +kernel
/-- VC7. -/
theorem test_lt_is_signed : gives (.lt 0 1 2) 0xFFFFFFFF 1 1 = true := by decide +kernel
/-- VC9. -/
theorem test_gtq_on_equal : gives (.gtq 0 1 2) 3 3 1 = true := by decide +kernel
/-- VC10. -/
theorem test_gtq_is_signed : gives (.gtq 0 1 2) 0x80000000 0x7FFFFFFF 0 = true := by decide +kernel
/-- VC11. -/
theorem test_ltq_on_equal : gives (.ltq 0 1 2) 3 3 1 = true := by decide +kernel
/-- VC12. -/
theorem test_ltq_greater : gives (.ltq 0 1 2) 4 3 0 = true := by decide +kernel
/-- VG1. -/
theorem test_feq_zeros : gives (.feq 0 1 2) 0 0x80000000 1 = true := by decide +kernel
/-- VG2. -/
theorem test_feq_nan : gives (.feq 0 1 2) 0x7FC00000 0x7FC00000 0 = true := by decide +kernel
/-- VG3. -/
theorem test_fne_nan : gives (.fne 0 1 2) 0x7FC00000 0x7FC00000 1 = true := by decide +kernel
/-- VG5. -/
theorem test_fgt_negative : gives (.fgt 0 1 2) 0xBF800000 0xC0000000 1 = true := by decide +kernel
/-- VG7. -/
theorem test_fgt_nan : gives (.fgt 0 1 2) 0x7FC00000 0x3F800000 0 = true := by decide +kernel
/-- VG8. -/
theorem test_flt_infinity : gives (.flt 0 1 2) 0xFF800000 0x3F800000 1 = true := by decide +kernel
/-- VG9. -/
theorem test_fgtq_on_equal : gives (.fgtq 0 1 2) 0x3F800000 0x3F800000 1 = true := by decide +kernel
/-- VG11. -/
theorem test_fltq_zeros : gives (.fltq 0 1 2) 0x80000000 0 1 = true := by decide +kernel
/-- VG12. -/
theorem test_fltq_nan : gives (.fltq 0 1 2) 0x3F800000 0x7FC00000 0 = true := by decide +kernel

/-! ### Jumps -/

/-- VJ2: a target beyond the program is taken. -/
theorem test_jmp : answers (exec (.jmp 5) (running [(5, 1000)])) (fun t => t.pc == 1000) = true := by decide +kernel
/-- VJ7: npc - 4. -/
theorem test_jmpf_backward :
    answers (exec (.jmpf 1) { running [(1, 0xFFFFFFFC)] with pc := 8 }) (fun t => t.pc == 8) = true := by decide +kernel
/-- VJ8. -/
theorem test_jmpf_below_zero : faults (.jmpf 1) { running [(1, 0xFFFFFFF0)] with pc := 8 } 10 = true := by decide +kernel
/-- VJ10. -/
theorem test_jmpb : answers (exec (.jmpb 2) { running [(2, 24)] with pc := 20 }) (fun t => t.pc == 0) = true := by decide +kernel
/-- VJ13. -/
theorem test_jmpb_forward :
    answers (exec (.jmpb 2) { running [(2, 0xFFFFFFF8)] with pc := 20 }) (fun t => t.pc == 32) = true := by decide +kernel
/-- VJ14, VJ15: JEQ jumps when its condition register is not zero. -/
theorem test_jeq :
    answers (exec (.jeq 0 3) (running [(0, 1), (3, 24)])) (fun t => t.pc == 24) = true ∧
      answers (exec (.jeq 0 3) (running [(3, 24)])) (fun t => t.pc == 4) = true := by decide +kernel
/-- VJ17, VJ18: JNE jumps when it is zero. -/
theorem test_jne :
    answers (exec (.jne 0 3) (running [(3, 24)])) (fun t => t.pc == 24) = true ∧
      answers (exec (.jne 0 3) (running [(0, 5), (3, 24)])) (fun t => t.pc == 4) = true := by decide +kernel

/-! ### The operand stack -/

/-- VS2. -/
theorem test_push_fills_the_last_slot : answers (exec (.push 0) { running [(0, 7)] with sp := 255 })
    (fun t => t.slot 255 == 7 && t.sp == 256 && t.pc == 4) = true := by decide +kernel
/-- VS3. -/
theorem test_push_overflow : faults (.push 0) { running [(0, 7)] with sp := 256 } 1 = true := by decide +kernel
/-- VS6. -/
theorem test_spush_fills : answers (exec (.spush 4) (running [(4, 256)])) (fun t => t.sp == 256) = true := by decide +kernel
/-- VS8. -/
theorem test_spush_does_not_wrap : faults (.spush 4) (running [(4, 0xFFFFFFFF)]) 1 = true := by decide +kernel
/-- VS9. -/
theorem test_pop : answers (exec (.pop 1) { running [] with sp := 1, stack := [(0, 10)] })
    (fun t => t.reg 1 == 10 && t.sp == 0 && t.slot 0 == 10) = true := by decide +kernel
/-- VS10. -/
theorem test_pop_underflow : faults (.pop 1) (running [(1, 0x55)]) 2 = true := by decide +kernel
/-- VS12. -/
theorem test_spop_empties : answers (exec (.spop 4) { running [(4, 5)] with sp := 5 }) (fun t => t.sp == 0) = true := by decide +kernel
/-- VS13. -/
theorem test_spop_underflow : faults (.spop 4) { running [(4, 6)] with sp := 5 } 2 = true := by decide +kernel

/-! ### Memory and heap -/

/-- VM2. -/
theorem test_read_ignores_sp : answers (exec (.read 1 2) { running [(1, 255)] with stack := [(255, 0xCD)] })
    (fun t => t.reg 2 == 0xCD) = true := by decide +kernel
/-- VM4. -/
theorem test_read_last_arena_word :
    answers (exec (.read 1 2) { running [(1, 0x100FF)] with heap := [(65535, 0x12)] }) (fun t => t.reg 2 == 0x12)
      = true := by decide +kernel
/-- VM7. -/
theorem test_write_arena : answers (exec (.write 0 1) (pair 0x2A 300)) (fun t => t.heap.read 44 == 0x2A) = true := by decide +kernel
/-- VM9. -/
theorem test_write_bad_address : faults (.write 0 1) (pair 0x2A 0x10100) 9 = true := by decide +kernel
/-- VM12. -/
theorem test_sread_unimplemented : faults (.sread 40 41) (running []) 11 = true := by decide +kernel
/-- VM11. -/
theorem test_swrite_unimplemented : faults (.swrite 0 1) (running []) 11 = true := by decide +kernel
/-- VH6. -/
theorem test_malloc_skips_a_small_gap :
    answers (exec (.malloc 0 1) { running [(0, 3)] with segs := [⟨0, 3⟩, ⟨4, 2⟩, ⟨65535, 0⟩] })
      (fun t => t.reg 1 == 0x106 && t.segs == [⟨0, 3⟩, ⟨4, 2⟩, ⟨6, 3⟩, ⟨65535, 0⟩]) = true := by decide +kernel
/-- VH5. -/
theorem test_malloc_out_of_memory : faults (.malloc 0 1) (running [(0, 0x10000)]) 3 = true := by decide +kernel
/-- VH7. -/
theorem test_free : answers (exec (.free 0) { running [(0, 0x100)] with segs := [⟨0, 4⟩, ⟨65535, 0⟩] })
    (fun t => t.segs == [⟨65535, 0⟩] && t.pc == 4) = true := by decide +kernel
/-- VH11: the sentinel is not live. -/
theorem test_free_sentinel : faults (.free 0) (running [(0, 0x100FF)]) 5 = true := by decide +kernel
/-- AS1, step 7: a zero-size request goes before the entry with its base. -/
theorem test_alloc_zero_size :
    alloc Config.default [⟨0, 3⟩, ⟨3, 1⟩, ⟨65535, 0⟩] 0 = some (0, [⟨0, 0⟩, ⟨0, 3⟩, ⟨3, 1⟩, ⟨65535, 0⟩]) := by decide +kernel
/-- AS1, step 8: the first match goes. -/
theorem test_release_first_match :
    release [⟨0, 0⟩, ⟨0, 3⟩, ⟨65535, 0⟩] 0 = some [⟨0, 3⟩, ⟨65535, 0⟩] := by decide +kernel
/-- AS3: the arena's last word is never allocated. -/
theorem test_alloc_last_word :
    alloc Config.default [⟨0, 65534⟩, ⟨65535, 0⟩] 1 = some (65534, [⟨0, 65534⟩, ⟨65534, 1⟩, ⟨65535, 0⟩]) ∧
      alloc Config.default [⟨0, 65534⟩, ⟨65534, 1⟩, ⟨65535, 0⟩] 1 = none := by decide +kernel
/-- R67: a full table is OutOfMemory. -/
theorem test_alloc_full_table : alloc { Config.default with segCap := 1 } [⟨65535, 0⟩] 1 = none := by decide +kernel

/-! ### Conversions, copies, halt and print -/

/-- VX2. -/
theorem test_ftoi_truncates : converts (.ftoi 0 1) 0xC06CCCCD 0xFFFFFFFD = true := by decide +kernel
/-- VX5. -/
theorem test_ftoi_saturates : converts (.ftoi 0 1) 0x4F000000 0x7FFFFFFF = true := by decide +kernel
/-- VX11. -/
theorem test_itof_tie_to_even : converts (.itof 0 1) 0x01000001 0x4B800000 = true := by decide +kernel
/-- VX14. -/
theorem test_itof_is_signed : converts (.itof 0 1) 0x80000000 0xCF000000 = true := by decide +kernel
/-- VX16. -/
theorem test_i32_keeps_the_pattern : converts (.i32 0 1) 0x7FC00001 0x7FC00001 = true := by decide +kernel
/-- VX18. -/
theorem test_f32_is_unsigned : converts (.f32 0 1) 0x80000000 0x4F000000 = true := by decide +kernel
/-- VX19. -/
theorem test_f32_rounds_up : converts (.f32 0 1) 0xFFFFFFFF 0x4F800000 = true := by decide +kernel
/-- VP1. -/
theorem test_hlt : answers (exec .hlt { running [] with pc := 24 }) (fun t => t.statusWord == 2 && t.pc == 28) = true := by decide +kernel
/-- VP4. -/
theorem test_print : answers (exec (.print 2) { running [(2, 0xFFFFFFFF)] with output := [1] })
    (fun t => t.output == [1, 0xFFFFFFFF] && t.pc == 4) = true := by decide +kernel
/-- VP6. -/
theorem test_mov : answers (exec (.mov 0 7) (running [(0, 0xDEADBEEF)]))
    (fun t => t.reg 7 == 0xDEADBEEF && t.reg 0 == 0xDEADBEEF) = true := by decide +kernel

/-! ### Steps, reset and the host -/

/-- VD1. -/
theorem test_step_empty_program : answers (step (loaded [])) (fun t => t.statusWord == 2 && t.pc == 0) = true := by decide +kernel
/-- VD3. -/
theorem test_step_illegal_opcode : answers (step (loaded [0xFF])) (fun t => t.statusWord == 0x73) = true := by decide +kernel
/-- VD5: padding counts. -/
theorem test_step_truncated : answers (step (loaded [0, 0, 5, 0, 0, 0, 0])) (fun t => t.statusWord == 0x63) = true := by decide +kernel
/-- R274: the engine is Idle after reset and stays so. -/
theorem test_step_idle : step State.reset = .next State.reset := rfl
/-- R270: while Running, LOAD_PROGRAM and RUN do not exist. -/
theorem test_host_commands_while_running :
    hostCommand .run (loaded []) = .refused .hostCommandWhileRunning ∧
      hostCommand (.loadProgram []) (loaded []) = .refused .hostCommandWhileRunning := ⟨rfl, rfl⟩
/-- R277, programs A and B of the spec: the stack survives LOAD_PROGRAM. -/
theorem test_stack_survives_load :
    answers (drive [.command (.loadProgram [0x1F, 0x01, 0, 0]), .command .run, .step]
        { State.reset with engine := .success, sp := 1, stack := [(0, 99)], regs := [(0, 99)] })
      (fun t => t.reg 0 == 0 && t.reg 1 == 99 && t.sp == 0) = true := by decide +kernel
/-- R271: RESET clears the stack and keeps the output. -/
theorem test_reset_clears_the_stack :
    answers (hostCommand .reset { running [(0, 9)] with sp := 1, stack := [(0, 99)], output := [7] })
      (fun t => t.slot 0 == 0 && t.sp == 0 && t.reg 0 == 0 && t.output == [7] && t.statusWord == 0) = true := by decide +kernel
/-- R31, R241: InvalidFree reads as 0x53. -/
theorem test_status_of_a_fault : (State.reset.raise .invalidFree).statusWord = 0x53 := by decide +kernel
theorem test_host_read_register :
    hostRead (.reg 3) { State.reset with regs := [(3, 8)] } = .next 8 ∧
      hostRead (.reg 32) State.reset = .fault .hostReadOutOfRange ∧
      hostRead .pc (loaded []) = .refused .hostReadWhileRunning := ⟨rfl, rfl, rfl⟩
/-- R33, R40, D32: L and the segment table are read outside Running. -/
theorem test_host_reads_length_and_segments :
    hostRead .progLen { State.reset with prog := [0x29, 0, 0, 0] } = .next 4 ∧
      hostSegments State.reset = .next [⟨65535, 0⟩] ∧
      hostSegments (loaded []) = .refused .hostReadWhileRunning := ⟨rfl, rfl, rfl⟩

/-! ### Witnesses: decoding and the step -/

/-- The opcode classes meet at 45 and 46, the widths at 4 and 8 bytes. -/
theorem witness_DecoderOutcomesFollowOpcodeAndLength :
    46 ≤ (0x2E : Byte).toNat ∧ 46 ≤ (0xFF : Byte).toNat ∧
      ((0x2D : Byte).toNat < 46 ∧ [0, 0].length + 1 < (if (0x2D : Byte) = 0 then 8 else 4)) ∧
      ((0x2D : Byte).toNat < 46 ∧ (if (0x2D : Byte) = 0 then 8 else 4) ≤ [0, 0, 0].length + 1) ∧
      ((0x00 : Byte).toNat < 46 ∧ [0, 0, 0, 0, 0, 0].length + 1 < (if (0x00 : Byte) = 0 then 8 else 4)) ∧
      (if (0x00 : Byte) = 0 then 8 else 4) ≤ [0, 0, 0, 0, 0, 0, 0].length + 1 := by decide +kernel

theorem witness_PaddingBytesAreIgnored :
    (0x2A : Byte) ∈ ([1, 2, 24, 25, 26, 29, 30, 31, 32, 36, 41, 42] : List Byte) ∧
      (0x2D : Byte) ∈ ([27, 28, 33, 34, 35, 37, 38, 39, 40, 43, 44, 45] : List Byte) := by decide +kernel

theorem witness_StepRunsTheDecodedInstruction :
    (loaded [0x03, 0, 1, 2]).engine = .running ∧
      decode ((loaded [0x03, 0, 1, 2]).prog.drop (loaded [0x03, 0, 1, 2]).pc.toNat) = .instr (.add 0 1 2) := by
  decide +kernel

/-- Idle, Halted(Success) and a fault. -/
theorem witness_NoStepOutsideRunning :
    State.reset.statusWord.extractLsb' 0 2 ≠ 1 ∧ State.reset.haltSuccess.statusWord.extractLsb' 0 2 ≠ 1 ∧
      (State.reset.raise .badRegister).statusWord.extractLsb' 0 2 ≠ 1 := by decide +kernel

/-- At the end and past it. -/
theorem witness_EndOfProgramHaltsWithSuccess :
    ((loaded []).engine = .running ∧ (loaded []).progLen ≤ (loaded []).pc.toNat) ∧
      (({ loaded [0x29, 0, 0, 0] with pc := 5 }).engine = .running ∧
        ({ loaded [0x29, 0, 0, 0] with pc := 5 }).progLen ≤ ({ loaded [0x29, 0, 0, 0] with pc := 5 }).pc.toNat) := by
  decide +kernel

theorem witness_IllegalOpcodeFaults :
    (loaded [0x2E]).engine = .running ∧ (loaded [0x2E]).prog[(loaded [0x2E]).pc.toNat]? = some 0x2E ∧
      46 ≤ (0x2E : Byte).toNat := by decide +kernel

/-- One byte short, for both widths. -/
theorem witness_TruncatedInstructionFaults :
    ((loaded [0x03, 0, 1]).engine = .running ∧
        (loaded [0x03, 0, 1]).prog[(loaded [0x03, 0, 1]).pc.toNat]? = some 0x03 ∧ (0x03 : Byte).toNat < 46 ∧
        (loaded [0x03, 0, 1]).progLen < (loaded [0x03, 0, 1]).pc.toNat + (if (0x03 : Byte) = 0 then 8 else 4)) ∧
      ((loaded [0, 0, 5, 0, 0, 0, 0]).prog[(loaded [0, 0, 5, 0, 0, 0, 0]).pc.toNat]? = some 0x00 ∧
        (loaded [0, 0, 5, 0, 0, 0, 0]).progLen <
          (loaded [0, 0, 5, 0, 0, 0, 0]).pc.toNat + (if (0x00 : Byte) = 0 then 8 else 4)) := by decide +kernel

/-- 32 is the first field that is bad, 31 the last that is not. -/
theorem witness_BadRegisterExactlyOnBadFields :
    (∃ f ∈ (Instr.add 0 1 32).regFields, State.reset.cfg.nreg ≤ f.toNat) ∧
      (∀ f ∈ (Instr.add 0 1 31).regFields, f.toNat < (loaded []).cfg.nreg) ∧ (loaded []).engine = .running := by
  decide +kernel

/-- DIV by zero, stepped: `Obligations.FaultsArePrecise`, `Obligations.FaultKindsByInstruction` and
`Obligations.RunAfterFaultFaultsAgain`. -/
theorem witness_FaultsArePrecise :
    (loaded [0x06, 0, 1, 2]).engine = .running ∧
      ∃ t, step (loaded [0x06, 0, 1, 2]) = .next t ∧ t.engine = .fault .divideByZero :=
  ⟨rfl, _, rfl, rfl⟩

/-- A fault of each clause: an illegal opcode, a truncated instruction, a bad register. -/
theorem witness_FaultKindsByInstruction :
    (∃ t, step (loaded [0x2E]) = .next t ∧ t.engine = .fault .illegalOpcode) ∧
      (∃ t, step (loaded [0x29]) = .next t ∧ t.engine = .fault .truncatedInstruction) ∧
      ∃ t, step (loaded [0x03, 0, 1, 32]) = .next t ∧ t.engine = .fault .badRegister :=
  ⟨⟨_, rfl, rfl⟩, ⟨_, rfl, rfl⟩, ⟨_, rfl, rfl⟩⟩

theorem witness_SuccessOnlyByHaltOrEndOfProgram :
    (∃ t, step (loaded [0x29, 0, 0, 0]) = .next t ∧ t.engine = .success) ∧
      ∃ t, step (loaded []) = .next t ∧ t.engine = .success :=
  ⟨⟨_, rfl, rfl⟩, ⟨_, rfl, rfl⟩⟩

theorem witness_StepKeepsProgramAndParameters :
    ∃ t, step (loaded [0x01, 0, 0, 0]) = .next t ∧ t.pc = 4 := ⟨_, rfl, rfl⟩

/-- The instruction ends where the program ends. -/
theorem witness_NextPcNeverWraps :
    (loaded [0x03, 0, 1, 2]).progLen < 2 ^ 32 ∧ (loaded [0x03, 0, 1, 2]).fetch = .instr (.add 0 1 2) := by
  decide +kernel

/-- Every clause: sp, the segment table, the output, the arena, the stack. -/
theorem witness_OnlyTheirInstructionsChangeState :
    (∃ t, exec (.push 0) (pair 7 0) = .next t ∧ t.sp ≠ (pair 7 0).sp ∧ t.stack ≠ (pair 7 0).stack) ∧
      (∃ t, exec (.malloc 0 1) (pair 7 0) = .next t ∧ t.segs ≠ (pair 7 0).segs) ∧
      (∃ t, exec (.print 0) (pair 7 0) = .next t ∧ t.output ≠ (pair 7 0).output) ∧
      ∃ t, exec (.write 0 1) (pair 7 256) = .next t ∧ t.heap ≠ (pair 7 256).heap :=
  ⟨⟨_, rfl, by decide, by decide⟩, ⟨_, rfl, by decide⟩, ⟨_, rfl, by decide⟩, ⟨_, rfl, by decide⟩⟩

/-! ### Witnesses: the invariant and the host -/

/-- A state in the middle of a run: registers, stack, arena and a live allocation. -/
def busy : State :=
  { loaded [0x1D, 0, 0, 0] with
    regs := [(0, 7), (31, 1)], stack := [(0, 5), (255, 9)], sp := 1, heap := [(0, 3), (65535, 4)],
    segs := [⟨0, 4⟩, ⟨4, 0⟩, ⟨4, 2⟩, ⟨65535, 0⟩] }

theorem busy_inv : Inv busy where
  cfg_valid := by decide +kernel
  regs_wf := by decide +kernel
  regs_below := by decide +kernel
  stack_wf := by decide +kernel
  stack_below := by decide +kernel
  heap_wf := by decide +kernel
  heap_below := by decide +kernel
  sp_le := by decide +kernel
  segs_ok := ⟨by decide +kernel, by decide +kernel, by decide +kernel⟩
  segs_cap := by decide +kernel
  prog_len := by decide +kernel

/-- The smallest and the largest parameters R7 allows. -/
theorem witness_ResetMeetsTheInvariant :
    ({ nreg := 0, stackN := 0, heapH := 1, ptrBias := 0, segCap := 1 } : Config).valid = true ∧
      ({ nreg := 256, stackN := 256, heapH := 2 ^ 32 - 256, ptrBias := 256, segCap := 2 ^ 32 } : Config).valid =
        true := by decide +kernel

theorem witness_EveryStepKeepsTheInvariant : Inv busy ∧ ∃ t, step busy = .next t ∧ t.sp = 2 :=
  ⟨busy_inv, _, rfl, rfl⟩

theorem witness_HostCommandsKeepTheInvariant :
    Inv busy ∧ ∃ t, hostCommand .reset busy = .next t ∧ t.sp = 0 := ⟨busy_inv, _, rfl, rfl⟩

theorem witness_CanonicalMemoriesReadingAlikeAreEqual :
    Memory.wf [(3, 5)] = true ∧ ∀ k, Memory.read [(3, 5)] k = Memory.read [(3, 5)] k :=
  ⟨by decide +kernel, fun _ => rfl⟩

/-- The first and the last word of the stack and of the arena. -/
theorem witness_UnifiedReadAfterWrite :
    (∃ t, busy.memWrite 0 8 = some t) ∧ (∃ t, busy.memWrite 255 8 = some t) ∧
      (∃ t, busy.memWrite 256 8 = some t) ∧ ∃ t, busy.memWrite 65791 8 = some t :=
  ⟨⟨_, rfl⟩, ⟨_, rfl⟩, ⟨_, rfl⟩, ⟨_, rfl⟩⟩

theorem witness_StatusRegisterLayout :
    State.reset.engine = .idle ∧ busy.engine = .running ∧ busy.haltSuccess.engine = .success ∧
      (busy.raise .unimplementedOpcode).engine = .fault .unimplementedOpcode := ⟨rfl, rfl, rfl, rfl⟩

/-- A halted machine with a stack, to which programs are loaded. -/
theorem witness_LoadProgramKeepsStackAndHeap :
    busy.haltSuccess.engine ≠ .running ∧ [0x29, 0, 0, 0].length < 2 ^ 32 := by decide +kernel

theorem witness_RunSetsRunningAndNothingElse : State.reset.engine ≠ .running ∧ busy.engine = .running := by
  decide +kernel

/-- The last register, stack slot, arena word and program byte; a full stack. -/
theorem witness_HostReadsTheFinalState :
    busy.haltSuccess.engine ≠ .running ∧ (31 : RegField).toNat < busy.haltSuccess.cfg.nreg ∧
      ({ busy.haltSuccess with sp := 256 }).sp < 2 ^ 32 ∧ 255 < busy.haltSuccess.cfg.stackN ∧
      65535 < busy.haltSuccess.cfg.heapH ∧ busy.haltSuccess.progLen < 2 ^ 32 ∧
      busy.haltSuccess.prog[3]? = some 0 ∧ busy.engine = .running ∧ HostRead.pc ≠ .status := by decide +kernel

theorem witness_RunAfterFaultFaultsAgain :
    ∃ t, step { busy with sp := 256 } = .next t ∧ busy.engine = .running ∧ t.engine = .fault .stackOverflow :=
  ⟨_, rfl, rfl, rfl⟩

/-! ### Witnesses: registers, integers, floats -/

/-- Fields 0 to 31 name registers, shown for one, two and three fields at the last register: the only
hypothesis of LoadWritesTheLiteral, IncrementAndDecrement, AddSubtractMultiply, IntegerComparisons,
AbsoluteJumps, IntegerToFloatRounds, BitCopies and HaltAndPrint, and the first of FloatComparisons,
ReserveAndDiscardMoveSp and FloatToIntegerTruncatesAndSaturates. -/
theorem witness_fieldsOk :
    busy.fieldsOk [31] = true ∧ busy.fieldsOk [0, 31] = true ∧ busy.fieldsOk [0, 1, 31] = true ∧
      busy.fieldsOk [31, 31, 31] = true := by decide +kernel

/-- Both clauses: a divisor that is not zero, and zero. -/
theorem witness_DivideAndRemainder :
    ((pair 7 2).fieldsOk [0, 1, 2] = true ∧ (pair 7 2).reg 1 ≠ 0) ∧
      (pair 7 0).fieldsOk [0, 1, 2] = true ∧ (pair 7 0).reg 1 = 0 := by decide +kernel

theorem witness_WrappedResultsAgreeWithUnsigned :
    (pair 7 2).fieldsOk [0, 1, 2] = true ∧ (∃ t, exec (.add 0 1 2) (pair 7 2) = .next t) ∧
      (∃ t, exec (.sub 0 1 2) (pair 7 2) = .next t) ∧ (∃ t, exec (.mul 0 1 2) (pair 7 2) = .next t) ∧
      (∃ t, exec (.inc 2) (pair 7 2) = .next t) ∧ ∃ t, exec (.dec 2) (pair 7 2) = .next t :=
  ⟨by decide +kernel, ⟨_, rfl⟩, ⟨_, rfl⟩, ⟨_, rfl⟩, ⟨_, rfl⟩, ⟨_, rfl⟩⟩

/-- D17's case. -/
theorem witness_QuotientAndRemainderLaw :
    (pair 0x80000000 0xFFFFFFFF).fieldsOk [0, 1, 2] = true ∧ (pair 0x80000000 0xFFFFFFFF).reg 1 ≠ 0 ∧
      (∃ t, exec (.div 0 1 2) (pair 0x80000000 0xFFFFFFFF) = .next t) ∧
      ∃ u, exec (.mod 0 1 2) (pair 0x80000000 0xFFFFFFFF) = .next u :=
  ⟨by decide +kernel, by decide +kernel, ⟨_, rfl⟩, ⟨_, rfl⟩⟩

/-- Both clauses: a result that is a number, and a NaN. -/
theorem witness_FloatArithmeticCompletes :
    ((pair 0x3FC00000 0x40000000).fieldsOk [0, 1, 2] = true ∧
        floatAdd (f32 ((pair 0x3FC00000 0x40000000).reg 0)) (f32 ((pair 0x3FC00000 0x40000000).reg 1)) =
          some 0x40600000) ∧
      ((pair 0x7F800000 0xFF800000).fieldsOk [0, 1, 2] = true ∧
        floatAdd (f32 ((pair 0x7F800000 0xFF800000).reg 0)) (f32 ((pair 0x7F800000 0xFF800000).reg 1)) =
          none) := by decide +kernel

/-- 1 and 1/2: every exact result of the two is not zero, nor is the divisor. -/
theorem witness_FloatResultsRoundTheExactValueOnce :
    (Datum.finite false (2 ^ 149)).toRat = some 1 ∧ (Datum.finite false (2 ^ 148)).toRat = some (1 / 2) ∧
      (1 + 1 / 2 : ℚ) ≠ 0 ∧ (1 - 1 / 2 : ℚ) ≠ 0 ∧ (1 * (1 / 2) : ℚ) ≠ 0 ∧ (1 / 2 : ℚ) ≠ 0 := by
  simp only [Datum.toRat, signedMag]
  norm_num

/-- Both clauses where they meet: the first value that is rounded to an infinity, and the one before it;
and a finite datum of that sign. -/
theorem witness_RoundingIsToNearestTiesToEven :
    0 < 1 ∧ (2 ^ 25 - 1) * 2 ^ 252 * 1 ≤ (2 ^ 25 - 1) * 2 ^ 252 ∧
      (2 ^ 25 - 1) * 2 ^ 252 - 1 < (2 ^ 25 - 1) * 2 ^ 252 * 1 ∧
      f32 0x7F7FFFFF = .finite false ((2 ^ 24 - 1) * 2 ^ 253) := by decide +kernel

/-- The smallest magnitude that is not zero; a product and a quotient that are numbers. -/
theorem witness_SignedZerosAndInfinities :
    1 ≠ 0 ∧ floatMul (f32 0x3F800000) (f32 0x80000000) = some 0x80000000 ∧
      floatDiv (f32 0x3F800000) (f32 0xBF800000) = some 0xBF800000 := by decide +kernel

/-- The smallest magnitude that is not zero, and the infinities it is multiplied with. -/
theorem witness_InfiniteOperands :
    1 ≠ 0 ∧ f32 0x00000001 = .finite false 1 ∧ f32 0x7F800000 = .infinite false ∧
      f32 0xFF800000 = .infinite true := by decide +kernel

/-- Both clauses: a relation that holds, and one that a NaN makes false. -/
theorem witness_FloatComparisons :
    (∃ x y, (f32 0x3F800000).rank = some x ∧ (f32 0x40000000).rank = some y ∧ x < y) ∧
      ¬∃ x y : Int, (f32 0x7FC00000).rank = some x ∧ (f32 0x3F800000).rank = some y ∧ x < y := by
  have h1 : (f32 0x3F800000).rank = some (2 ^ 149) := by decide +kernel
  have h2 : (f32 0x40000000).rank = some (2 ^ 150) := by decide +kernel
  have h3 : (f32 0x7FC00000).rank = none := by decide +kernel
  refine ⟨⟨_, _, h1, h2, by norm_num⟩, ?_⟩
  rintro ⟨x, y, hx, -⟩
  rw [h3] at hx
  cases hx

/-! ### Witnesses: jumps, stack, memory, heap, conversions -/

/-- JMPF at offset 0 with x[1] = -4, -5; at offset 2^31 - 4 and 2^31 - 3 with x[1] = 2^31 - 1: the targets
are 0, -1, 2^32 - 1 and 2^32. -/
theorem witness_RelativeJumps :
    (running [(1, 0xFFFFFFFC)]).fieldsOk [1] = true ∧
      (0 + 4 + ((running [(1, 0xFFFFFFFC)]).reg 1).toInt : Int) = 0 ∧
      (0 + 4 + ((running [(1, 0xFFFFFFFB)]).reg 1).toInt : Int) < 0 ∧
      (((0x7FFFFFFC : Word).toNat : Int) + 4 + ((running [(1, 0x7FFFFFFF)]).reg 1).toInt) = 2 ^ 32 - 1 ∧
      (2 ^ 32 : Int) ≤ ((0x7FFFFFFD : Word).toNat : Int) + 4 + ((running [(1, 0x7FFFFFFF)]).reg 1).toInt := by
  have h1 : ((running [(1, 0xFFFFFFFC)]).reg 1).toInt = -4 := by decide +kernel
  have h2 : ((running [(1, 0xFFFFFFFB)]).reg 1).toInt = -5 := by decide +kernel
  have h3 : ((running [(1, 0x7FFFFFFF)]).reg 1).toInt = 2147483647 := by decide +kernel
  have h4 : (0x7FFFFFFC : Word).toNat = 2147483644 := by decide +kernel
  have h5 : (0x7FFFFFFD : Word).toNat = 2147483645 := by decide +kernel
  refine ⟨by decide +kernel, ?_, ?_, ?_, ?_⟩ <;> simp only [h1, h2, h3, h4, h5] <;> norm_num

/-- The last slot, and the full stack; also for `Obligations.PushThenPopCarriesTheValue`. -/
theorem witness_PushWritesTheNextSlot :
    busy.fieldsOk [0, 31] = true ∧ ({ busy with sp := 255 }).sp < busy.cfg.stackN ∧
      busy.cfg.stackN ≤ ({ busy with sp := 256 }).sp := by decide +kernel

/-- The bottom slot, and the empty stack. -/
theorem witness_PopReadsTheTopSlot :
    busy.fieldsOk [31] = true ∧ busy.sp ≠ 0 ∧ ({ busy with sp := 0 }).sp = 0 := by decide +kernel

/-- SPUSH to exactly the capacity and one past it, SPOP of exactly sp and of one more. -/
theorem witness_ReserveAndDiscardMoveSp :
    ({ busy with sp := 249 }).sp + (busy.reg 0).toNat = busy.cfg.stackN ∧
      busy.cfg.stackN < ({ busy with sp := 250 }).sp + (busy.reg 0).toNat ∧
      (busy.reg 0).toNat ≤ ({ busy with sp := 7 }).sp ∧ ({ busy with sp := 6 }).sp < (busy.reg 0).toNat := by
  decide +kernel

/-- READ and WRITE: the last stack slot, the first and the last arena word, the first address past them. -/
theorem witness_ReadLoadsFromTheUnifiedSpace :
    (pair 1 255).fieldsOk [0, 1] = true ∧ ((pair 1 255).reg 1).toNat < (pair 1 255).cfg.stackN ∧
      ((pair 1 256).cfg.stackN ≤ ((pair 1 256).reg 1).toNat ∧
        ((pair 1 65791).reg 1).toNat < (pair 1 65791).cfg.stackN + (pair 1 65791).cfg.heapH) ∧
      (pair 1 65792).cfg.stackN + (pair 1 65792).cfg.heapH ≤ ((pair 1 65792).reg 1).toNat := by decide +kernel

/-- A request of 7 words on the table of `busy`: it fits from base 6 on. -/
theorem witness_MallocTakesTheLowestFit :
    busy.fieldsOk [0, 1] = true ∧ SegmentsOk busy.cfg.heapH busy.segs ∧ busy.segs.length ≠ busy.cfg.segCap ∧
      ∃ b, Fits busy.cfg.heapH busy.segs b (busy.reg 0).toNat :=
  ⟨by decide +kernel, busy_inv.segs_ok, by decide +kernel, 6,
    ⟨by decide +kernel, by decide +kernel, by decide +kernel⟩⟩

/-- Both clauses: a request one word larger than the usable arena, and a full table. -/
theorem witness_MallocOutOfMemoryFaults :
    (pair 65536 0).fieldsOk [0, 1] = true ∧ SegmentsOk (pair 65536 0).cfg.heapH (pair 65536 0).segs ∧
      (∀ b, ¬Fits (pair 65536 0).cfg.heapH (pair 65536 0).segs b ((pair 65536 0).reg 0).toNat) ∧
      ({ pair 1 0 with cfg := { Config.default with segCap := 1 } }).segs.length =
        ({ pair 1 0 with cfg := { Config.default with segCap := 1 } }).cfg.segCap := by
  refine ⟨by decide +kernel, ⟨by decide +kernel, by decide +kernel, by decide +kernel⟩, fun b h => ?_, rfl⟩
  have hb := h.below
  have hh : (pair 65536 0).cfg.heapH = 65536 := rfl
  have hn : ((pair 65536 0).reg 0).toNat = 65536 := by decide +kernel
  omega

/-- Both clauses: the pointer of base 4, where two live entries stand; and the sentinel's. -/
theorem witness_FreeRemovesTheFirstLiveEntry :
    ({ busy with regs := [(0, 260)] }).fieldsOk [0] = true ∧
      (∃ g ∈ busy.segs.dropLast,
        g.base + busy.cfg.ptrBias = (({ busy with regs := [(0, 260)] }).reg 0).toNat) ∧
      ∀ g ∈ busy.segs.dropLast,
        g.base + busy.cfg.ptrBias ≠ (({ busy with regs := [(0, 65791)] }).reg 0).toNat := by decide +kernel

/-- Every clause: a NaN, both infinities, 2^31, -2^31 - 2^8, 0 and -1/2. -/
theorem witness_FloatToIntegerTruncatesAndSaturates :
    f32 0x7FC00000 = .nan ∧ f32 0x7F800000 = .infinite false ∧ f32 0xFF800000 = .infinite true ∧
      (f32 0x4F000000).toRat = some (2 ^ 31) ∧ (f32 0xCF000001).toRat = some (-2 ^ 31 - 2 ^ 8) ∧
      (f32 0).toRat = some 0 ∧ (f32 0xBF000000).toRat = some (-1 / 2) := by
  have h1 : f32 0x4F000000 = .finite false (2 ^ 180) := by decide +kernel
  have h2 : f32 0xCF000001 = .finite true (2 ^ 149 * (2 ^ 31 + 2 ^ 8)) := by decide +kernel
  have h3 : f32 0 = .finite false 0 := by decide +kernel
  have h4 : f32 0xBF000000 = .finite true (2 ^ 148) := by decide +kernel
  refine ⟨by decide +kernel, by decide +kernel, by decide +kernel, ?_, ?_, ?_, ?_⟩
  · rw [h1]; simp only [Datum.toRat, signedMag]; norm_num
  · rw [h2]; simp only [Datum.toRat, signedMag]; norm_num
  · rw [h3]; simp only [Datum.toRat, signedMag]; norm_num
  · rw [h4]; simp only [Datum.toRat, signedMag]; norm_num

/-- 1, whose pattern is 0x3F800000. -/
theorem witness_IntegerFloatRoundTrip :
    (pair 1 0).fieldsOk [0, 1, 2] = true ∧ ∃ w : Word, (f32 w).toRat = some (((pair 1 0).reg 0).toInt : ℚ) := by
  have h : f32 0x3F800000 = .finite false (2 ^ 149) := by decide +kernel
  have h1 : ((pair 1 0).reg 0).toInt = 1 := by decide +kernel
  refine ⟨by decide +kernel, 0x3F800000, ?_⟩
  rw [h, h1]
  simp only [Datum.toRat, signedMag]
  norm_num

end Sys2Proof.Tests
end

section
/-! What one instruction can do, said once for all 46, and what every step keeps: the invariant, the
program and the parameters. -/

namespace Sys2Proof.Machine

/-- Everything an instruction can do where it stands: a bad field or its own rule's fault, a result in a
register it names, a jump or the next instruction, or the one effect its opcode alone has. -/
inductive Effect (s : State) : Instr → State → Prop where
  | badRegister {i : Instr} (hbad : s.fieldsOk i.regFields = false) : Effect s i (s.raise .badRegister)
  | ruleFault {i : Instr} {k : FaultKind} (hok : s.fieldsOk i.regFields = true)
      (hk : executeFaultOf i = some k) : Effect s i (s.raise k)
  | register {i : Instr} {rd : RegField} (v : Word) (hok : s.fieldsOk i.regFields = true)
      (hrd : rd ∈ i.regFields) : Effect s i ((s.setReg rd v).advance i.width)
  | floatResult {i : Instr} {rd : RegField} (r : Option Word) (hok : s.fieldsOk i.regFields = true)
      (hrd : rd ∈ i.regFields) : Effect s i ((s.setFloat rd r).advance i.width)
  | jump {i : Instr} (target : Word) (hok : s.fieldsOk i.regFields = true) : Effect s i (s.jumpTo target)
  | fallThrough {i : Instr} (hok : s.fieldsOk i.regFields = true) : Effect s i (s.advance i.width)
  | halt : Effect s .hlt (s.advance 4).haltSuccess
  | print {r : RegField} (hok : s.fieldsOk [r] = true) : Effect s (.print r) ((s.emit (s.reg r)).advance 4)
  | push {r : RegField} (hok : s.fieldsOk [r] = true) (hsp : s.sp < s.cfg.stackN) :
      Effect s (.push r) (((s.setSlot s.sp (s.reg r)).setSp (s.sp + 1)).advance 4)
  | spush {r : RegField} (hok : s.fieldsOk [r] = true) (hsp : s.sp + uint (s.reg r) ≤ s.cfg.stackN) :
      Effect s (.spush r) ((s.setSp (s.sp + uint (s.reg r))).advance 4)
  | pop {r : RegField} (hok : s.fieldsOk [r] = true) (hsp : s.sp ≠ 0) :
      Effect s (.pop r) (((s.setSp (s.sp - 1)).setReg r (s.slot (s.sp - 1))).advance 4)
  | spop {r : RegField} (hok : s.fieldsOk [r] = true) (hsp : uint (s.reg r) ≤ s.sp) :
      Effect s (.spop r) ((s.setSp (s.sp - uint (s.reg r))).advance 4)
  | write {src addr : RegField} {p : Place} (hok : s.fieldsOk [src, addr] = true)
      (hp : translate s.cfg (uint (s.reg addr)) = some p) :
      Effect s (.write src addr) ((s.writePlace p (s.reg src)).advance 4)
  | malloc {size dst : RegField} {base : Nat} {segs' : List Segment} (hok : s.fieldsOk [size, dst] = true)
      (ha : alloc s.cfg s.segs (uint (s.reg size)) = some (base, segs')) :
      Effect s (.malloc size dst)
        (((s.setSegs segs').setReg dst (u32 ((base : Int) + s.cfg.ptrBias))).advance 4)
  | free {ptr : RegField} {segs' : List Segment} (hok : s.fieldsOk [ptr] = true)
      (hbias : s.cfg.ptrBias ≤ uint (s.reg ptr))
      (hr : release s.segs (uint (s.reg ptr) - s.cfg.ptrBias) = some segs') :
      Effect s (.free ptr) ((s.setSegs segs').advance 4)

variable {s t : State} {i : Instr}

/-- Behind the field check only the opcode's rule is left to look at. -/
theorem Effect.of_checkFields {rule : Result} (h : checkFields i.regFields s rule = .next t)
    (hrule : s.fieldsOk i.regFields = true → rule = .next t → Effect s i t) : Effect s i t := by
  rcases checkFields_cases h with ⟨hok, hr⟩ | ⟨hbad, rfl⟩
  · exact hrule hok hr
  · exact .badRegister hbad

/-- An instruction of 4 bytes whose rule retires one register it names. -/
theorem Effect.of_retireReg {rd : RegField} {v : Word} (hw : i.width = 4) (hrd : rd ∈ i.regFields)
    (h : checkFields i.regFields s (retireReg s rd v) = .next t) : Effect s i t := by
  refine .of_checkFields h fun hok hr => ?_
  obtain rfl := Host.Outcome.next.inj hr
  exact hw ▸ .register v hok hrd

theorem Effect.of_intDivide {f : Int → Int → Int} {ra rb rd : RegField} (hi : i.regFields = [ra, rb, rd])
    (hw : i.width = 4) (hk : executeFaultOf i = some .divideByZero)
    (h : intDivide f ra rb rd s = .next t) : Effect s i t := by
  unfold intDivide at h
  rw [← hi] at h
  refine .of_checkFields h fun hok hr => ?_
  split at hr <;> obtain rfl := Host.Outcome.next.inj hr
  · exact .ruleFault hok hk
  · exact hw ▸ .register _ hok (by simp [hi])

theorem Effect.of_floatBinary {f : Datum → Datum → Option Word} {ra rb rd : RegField}
    (hi : i.regFields = [ra, rb, rd]) (hw : i.width = 4) (h : floatBinary f ra rb rd s = .next t) :
    Effect s i t := by
  unfold floatBinary at h
  rw [← hi] at h
  refine .of_checkFields h fun hok hr => ?_
  obtain rfl := Host.Outcome.next.inj hr
  exact hw ▸ .floatResult _ hok (by simp [hi])

theorem Effect.of_jumpRelative {target : Int} (hk : executeFaultOf i = some .badJumpTarget)
    (h : checkFields i.regFields s (jumpRelative target s) = .next t) : Effect s i t := by
  refine .of_checkFields h fun hok hr => ?_
  rcases jumpRelative_cases hr with ⟨-, -, rfl⟩ | ⟨-, rfl⟩
  · exact .jump _ hok
  · exact .ruleFault hok hk

/-- JEQ and JNE: the jump, or the next instruction. -/
theorem Effect.of_branch {c : Prop} [Decidable c] {target : Word} (hw : i.width = 4)
    (h : checkFields i.regFields s (.next (if c then s.jumpTo target else s.advance 4)) = .next t) :
    Effect s i t := by
  refine .of_checkFields h fun hok hr => ?_
  split at hr <;> obtain rfl := Host.Outcome.next.inj hr
  · exact .jump _ hok
  · exact hw ▸ .fallThrough hok

/-- Everything an instruction that answers can have done. -/
theorem exec_effect (h : exec i s = .next t) : Effect s i t := by
  cases i with
  | load rd imm =>
    refine .of_checkFields (i := .load rd imm) h fun hok hr => ?_
    obtain rfl := Host.Outcome.next.inj hr
    exact .register (i := .load rd imm) imm hok (.head _)
  | inc r | dec r =>
    exact .of_retireReg (rd := r) rfl (by simp [Instr.regFields]) h
  | add ra rb rd | sub ra rb rd | mul ra rb rd | eq ra rb rd | ne ra rb rd | gt ra rb rd
  | lt ra rb rd | gtq ra rb rd | ltq ra rb rd | feq ra rb rd | fne ra rb rd | fgt ra rb rd
  | flt ra rb rd | fgtq ra rb rd | fltq ra rb rd =>
    exact .of_retireReg (rd := rd) rfl (by simp [Instr.regFields]) h
  | div ra rb rd | mod ra rb rd =>
    exact .of_intDivide rfl rfl rfl h
  | fadd ra rb rd | fsub ra rb rd | fmul ra rb rd | fdiv ra rb rd =>
    exact .of_floatBinary rfl rfl h
  | jmp r =>
    refine .of_checkFields (i := .jmp r) h fun hok hr => ?_
    obtain rfl := Host.Outcome.next.inj hr
    exact .jump _ hok
  | jmpf r | jmpb r =>
    exact .of_jumpRelative rfl h
  | jeq a b | jne a b =>
    exact .of_branch rfl h
  | push r =>
    refine .of_checkFields (i := .push r) h fun hok hr => ?_
    split at hr <;> obtain rfl := Host.Outcome.next.inj hr
    · exact .ruleFault hok rfl
    · next hsp => exact .push hok (not_le.mp hsp)
  | spush r =>
    refine .of_checkFields (i := .spush r) h fun hok hr => ?_
    split at hr <;> obtain rfl := Host.Outcome.next.inj hr
    · exact .ruleFault hok rfl
    · next hsp => exact .spush hok (not_lt.mp hsp)
  | pop r =>
    refine .of_checkFields (i := .pop r) h fun hok hr => ?_
    split at hr <;> obtain rfl := Host.Outcome.next.inj hr
    · exact .ruleFault hok rfl
    · next hsp => exact .pop hok hsp
  | spop r =>
    refine .of_checkFields (i := .spop r) h fun hok hr => ?_
    split at hr <;> obtain rfl := Host.Outcome.next.inj hr
    · exact .ruleFault hok rfl
    · next hsp => exact .spop hok (not_lt.mp hsp)
  | read addr dst =>
    refine .of_checkFields (i := .read addr dst) h fun hok hr => ?_
    split at hr <;> obtain rfl := Host.Outcome.next.inj hr
    · exact .ruleFault hok rfl
    · exact .register (i := .read addr dst) _ hok (by simp [Instr.regFields])
  | write src addr =>
    refine .of_checkFields (i := .write src addr) h fun hok hr => ?_
    split at hr <;> obtain rfl := Host.Outcome.next.inj hr
    · exact .ruleFault hok rfl
    · next hw =>
      obtain ⟨p, hp, rfl⟩ := State.memWrite_cases hw
      exact .write hok hp
  | malloc size dst =>
    refine .of_checkFields (i := .malloc size dst) h fun hok hr => ?_
    split at hr <;> obtain rfl := Host.Outcome.next.inj hr
    · exact .ruleFault hok rfl
    · next ha => exact .malloc hok ha
  | free ptr =>
    refine .of_checkFields (i := .free ptr) h fun hok hr => ?_
    split at hr
    · obtain rfl := Host.Outcome.next.inj hr
      exact .ruleFault hok rfl
    · next hbias =>
      split at hr <;> obtain rfl := Host.Outcome.next.inj hr
      · exact .ruleFault hok rfl
      · next hrel => exact .free hok (not_lt.mp hbias) hrel
  | ftoi src dst | itof src dst | i32 src dst | f32 src dst | mov src dst =>
    exact .of_retireReg (rd := dst) rfl (by simp [Instr.regFields]) h
  | hlt =>
    obtain rfl := Host.Outcome.next.inj h
    exact .halt
  | print r =>
    refine .of_checkFields (i := .print r) h fun hok hr => ?_
    obtain rfl := Host.Outcome.next.inj hr
    exact .print hok
  | sread b1 b2 | swrite b1 b2 =>
    obtain rfl := Host.Outcome.next.inj h
    exact .ruleFault rfl rfl

end Sys2Proof.Machine
end

section
/-! The invariant, kept by each update of the state and so by each effect. -/

namespace Sys2Proof.Machine

/-! ### The segment table -/

/-- The end before the insertion point is at or past the end of every entry before it. -/
theorem SegmentsOk.le_endOf {pre : List Segment} {c : Nat}
    (h : pre.Pairwise fun g h => g.base ≤ h.base ∧ g.base + g.len ≤ h.base) :
    ∀ p ∈ pre, p.base + p.len ≤ endOf c pre := by
  induction pre using List.reverseRecOn with
  | nil => simp
  | append_singleton init l _ =>
    intro p hp
    have hend : endOf c (init ++ [l]) = l.base + l.len := by simp [endOf]
    rw [hend]
    rcases List.mem_append.mp hp with hp | hp
    · exact ((List.pairwise_append.mp h).2.2 p hp l (by simp)).2.trans (Nat.le_add_right _ _)
    · obtain rfl := List.mem_singleton.mp hp
      exact le_rfl

/-- No entry, the sentinel included, begins past the sentinel's base. -/
theorem SegmentsOk.base_le {n : Nat} {segs : List Segment} (h : SegmentsOk n segs) {g : Segment}
    (hg : g ∈ segs) : g.base ≤ n - 1 := by
  have hsplit := List.dropLast_append_getLast? _ h.sentinel
  rw [← hsplit] at hg
  rcases List.mem_append.mp hg with hg | hg
  · exact (h.live g hg).2.le
  · obtain rfl := List.mem_singleton.mp hg
    exact le_rfl

/-- An entry put where a first fit was found keeps R34. -/
theorem SegmentsOk.insert {n base size : Nat} {pre post : List Segment} {g : Segment}
    (h : SegmentsOk n (pre ++ g :: post)) (hb : base = endOf 0 pre) (hfit : base + size ≤ g.base)
    (hn : base < n - 1) : SegmentsOk n (pre ++ ⟨base, size⟩ :: g :: post) := by
  obtain ⟨hpre, hpost, hcross⟩ := List.pairwise_append.mp h.ordered
  have hg : g.base ≤ n - 1 := h.base_le (by simp)
  have hbefore : ∀ p ∈ pre, p.base + p.len ≤ base := hb ▸ SegmentsOk.le_endOf hpre
  have hafter : ∀ q ∈ g :: post, base + size ≤ q.base := by
    intro q hq
    rcases List.mem_cons.mp hq with rfl | hq
    · exact hfit
    · exact hfit.trans ((List.pairwise_cons.mp hpost).1 q hq).1
  refine ⟨by simpa using h.sentinel, ?_, ?_⟩
  · refine List.pairwise_append.mpr ⟨hpre, List.pairwise_cons.mpr ⟨fun q hq => ?_, hpost⟩, ?_⟩
    · have := hafter q hq
      exact ⟨by dsimp only; omega, this⟩
    · intro p hp q hq
      rcases List.mem_cons.mp hq with rfl | hq
      · have := hbefore p hp
        exact ⟨by dsimp only; omega, this⟩
      · exact hcross p hp q hq
  · intro q hq
    have hlive := h.live q
    simp only [List.dropLast_append_cons, List.dropLast_cons_cons, List.mem_append, List.mem_cons] at hq hlive
    rcases hq with hq | rfl | hq
    · exact hlive (.inl hq)
    · exact ⟨hfit.trans hg, hn⟩
    · exact hlive (.inr hq)

/-- Removing an entry before the last keeps R34. -/
theorem SegmentsOk.remove {n : Nat} {pre post : List Segment} {g : Segment}
    (h : SegmentsOk n (pre ++ g :: post)) (hpost : post ≠ []) : SegmentsOk n (pre ++ post) := by
  have hsub : (pre ++ post).Sublist (pre ++ g :: post) :=
    List.Sublist.append_left (List.sublist_cons_self g post) pre
  have hlive : (pre ++ post).dropLast ⊆ (pre ++ g :: post).dropLast := by
    rw [List.dropLast_append_of_ne_nil hpost, List.dropLast_append_cons, List.dropLast_cons_of_ne_nil hpost]
    exact (List.Sublist.append_left (List.sublist_cons_self g _) pre).subset
  refine ⟨?_, h.ordered.sublist hsub, fun q hq => h.live q (hlive hq)⟩
  have hs := h.sentinel
  rwa [List.getLast?_append_of_ne_nil _ (by simp), List.getLast?_cons_of_ne_nil hpost,
    ← List.getLast?_append_of_ne_nil pre hpost] at hs

/-- Alloc keeps R34 and the table's capacity. -/
theorem alloc_keeps_segments {c : Config} {segs : List Segment} {size : Nat} {r : Nat × List Segment}
    (hok : SegmentsOk c.heapH segs) (hcap : segs.length ≤ c.segCap) (h : alloc c segs size = some r) :
    SegmentsOk c.heapH r.2 ∧ r.2.length ≤ c.segCap := by
  obtain ⟨hscan, hbase, hfull⟩ := alloc_cases h
  obtain ⟨pre, g, post, rfl, hend, hfit, hr, -⟩ := allocScan_cases hscan
  rw [hr]
  refine ⟨hok.insert hend hfit hbase, ?_⟩
  simp only [List.length_append, List.length_cons] at hcap hfull ⊢
  omega

/-- Free keeps R34 and the table's capacity. -/
theorem release_keeps_segments {n cap b : Nat} {segs segs' : List Segment}
    (hok : SegmentsOk n segs) (hcap : segs.length ≤ cap) (h : release segs b = some segs') :
    SegmentsOk n segs' ∧ segs'.length ≤ cap := by
  obtain ⟨pre, g, post, rfl, hpost, -, rfl, -⟩ := release_cases h
  refine ⟨hok.remove hpost, ?_⟩
  simp only [List.length_append, List.length_cons] at hcap ⊢
  omega

/-! ### The updates -/

section Updates

variable {s : State} (h : Inv s)
include h

theorem Inv.raise (k : FaultKind) : Inv (s.raise k) := { h with }
theorem Inv.haltSuccess : Inv s.haltSuccess := { h with }
theorem Inv.jumpTo (target : Word) : Inv (s.jumpTo target) := { h with }
theorem Inv.advance (width : Nat) : Inv (s.advance width) := { h with }
theorem Inv.emit (v : Word) : Inv (s.emit v) := { h with }

theorem Inv.setSp {n : Nat} (hn : n ≤ s.cfg.stackN) : Inv (s.setSp n) := { h with sp_le := hn }

theorem Inv.setReg {rd : RegField} (hrd : rd.toNat < s.cfg.nreg) (v : Word) : Inv (s.setReg rd v) :=
  { h with
    regs_wf := Memory.write_wf _ v h.regs_wf
    regs_below := Memory.write_below v hrd h.regs_below }

theorem Inv.setFloat {rd : RegField} (hrd : rd.toNat < s.cfg.nreg) (r : Option Word) :
    Inv (s.setFloat rd r) := by
  cases r with
  | some v => exact h.setReg hrd v
  | none => exact { h.setReg hrd (nanResult s.nanDraws) with }

theorem Inv.setSlot {k : Nat} (hk : k < s.cfg.stackN) (v : Word) : Inv (s.setSlot k v) :=
  { h with
    stack_wf := Memory.write_wf k v h.stack_wf
    stack_below := Memory.write_below v hk h.stack_below }

theorem Inv.setSegs {segs : List Segment}
    (hsegs : SegmentsOk s.cfg.heapH segs ∧ segs.length ≤ s.cfg.segCap) : Inv (s.setSegs segs) :=
  { h with segs_ok := hsegs.1, segs_cap := hsegs.2 }

/-- A store at the place a unified address reaches (R51). -/
theorem Inv.writePlace {a : Nat} {p : Place} (hp : translate s.cfg a = some p) (v : Word) :
    Inv (s.writePlace p v) := by
  rcases translate_cases s.cfg a with ⟨hlt, e⟩ | ⟨hle, hlt, e⟩ | ⟨-, e⟩ <;> rw [e] at hp
  · obtain rfl := Option.some.inj hp
    exact h.setSlot hlt v
  · obtain rfl := Option.some.inj hp
    have hk : a - s.cfg.stackN < s.cfg.heapH := by omega
    exact { h with
      heap_wf := Memory.write_wf _ v h.heap_wf
      heap_below := Memory.write_below v hk h.heap_below }
  · cases hp

end Updates

/-! ### Instructions and steps -/

variable {s t : State} {i : Instr}

/-- What a step is made of: it stays, halts, takes a fault, or has an effect of an instruction. A property
all four keep is kept by every step. -/
theorem step_keeps {P : State → Prop} (hstay : P s) (hhalt : P s.haltSuccess)
    (hraise : ∀ k, P (s.raise k)) (heffect : ∀ i u, Effect s i u → P u) (h : step s = .next t) : P t := by
  rcases step_cases h with ⟨-, rfl⟩ | ⟨-, ⟨-, rfl⟩ | ⟨-, rfl⟩ | ⟨-, rfl⟩ | ⟨i, -, hexec⟩⟩
  · exact hstay
  · exact hhalt
  · exact hraise _
  · exact hraise _
  · exact heffect i t (exec_effect hexec)

theorem Effect.keeps_inv (he : Effect s i t) (h : Inv s) : Inv t := by
  have hreg {fields : List RegField} {r : RegField} (hok : s.fieldsOk fields = true) (hr : r ∈ fields) :
      r.toNat < s.cfg.nreg := (s.fieldsOk_iff fields).mp hok r hr
  cases he with
  | badRegister => exact h.raise _
  | ruleFault => exact h.raise _
  | register v hok hrd => exact (h.setReg (hreg hok hrd) v).advance _
  | floatResult r hok hrd => exact (h.setFloat (hreg hok hrd) r).advance _
  | jump target => exact h.jumpTo target
  | fallThrough => exact h.advance _
  | halt => exact (h.advance 4).haltSuccess
  | print => exact (h.emit _).advance 4
  | push _ hsp => exact ((h.setSlot hsp _).setSp hsp).advance 4
  | spush _ hsp => exact (h.setSp hsp).advance 4
  | pop hok _ =>
    have hsp : Inv (s.setSp (s.sp - 1)) := h.setSp ((Nat.sub_le _ _).trans h.sp_le)
    exact (hsp.setReg (hreg hok (by simp)) _).advance 4
  | spop _ _ => exact (h.setSp ((Nat.sub_le _ _).trans h.sp_le)).advance 4
  | write _ hp => exact (h.writePlace hp _).advance 4
  | malloc hok ha =>
    have hsegs := h.setSegs (alloc_keeps_segments h.segs_ok h.segs_cap ha)
    exact (hsegs.setReg (hreg hok (by simp)) _).advance 4
  | free _ _ hr => exact (h.setSegs (release_keeps_segments h.segs_ok h.segs_cap hr)).advance 4

/-- Settles O19: the invariant is kept by every effect an instruction can have, and by the halts and
faults of a fetch that yields none. -/
theorem everyStepKeepsTheInvariant : Obligations.EveryStepKeepsTheInvariant :=
  fun _ _ h hstep => step_keeps h h.haltSuccess h.raise (fun _ _ he => he.keeps_inv h) hstep

theorem Effect.keeps_program_and_parameters (he : Effect s i t) : t.prog = s.prog ∧ t.cfg = s.cfg := by
  cases he <;> simp

/-- Settles O15: no update of the state that a step is made of touches the program or the parameters. -/
theorem stepKeepsProgramAndParameters : Obligations.StepKeepsProgramAndParameters := by
  intro s t hstep
  exact step_keeps (P := fun u => u.prog = s.prog ∧ u.cfg = s.cfg) ⟨rfl, rfl⟩ ⟨rfl, rfl⟩
    (fun _ => ⟨rfl, rfl⟩) (fun _ _ he => he.keeps_program_and_parameters) hstep

/-- The state after RESET meets the invariant: empty memories, an empty stack and the sentinel alone. -/
theorem State.resetWith_inv {c : Config} (hc : c.valid = true) : Inv (State.resetWith c) where
  cfg_valid := hc
  regs_wf := rfl
  regs_below := rfl
  stack_wf := rfl
  stack_below := rfl
  heap_wf := rfl
  heap_below := rfl
  sp_le := Nat.zero_le _
  segs_ok := ⟨rfl, List.pairwise_singleton _ _, by simp [State.resetWith]⟩
  segs_cap := by
    simp only [Config.valid, Bool.and_eq_true, decide_eq_true_eq] at hc
    exact hc.2
  prog_len := Nat.two_pow_pos 32

/-- Settles O18, for any valid parameters and for the default ones. -/
theorem resetMeetsTheInvariant : Obligations.ResetMeetsTheInvariant :=
  ⟨fun _ hc => State.resetWith_inv hc, State.resetWith_inv (by decide)⟩

end Sys2Proof.Machine
end

section
/-! What the decoder answers on four bytes, the width it consumes, and integer arithmetic. -/

namespace Sys2Proof

/-- An opcode of 4 bytes (1 to 45) with its three operand bytes decodes by the table, whatever follows. -/
theorem decode_four_bytes {op : Byte} (b1 b2 b3 : Byte) (tail : List Byte) (hpos : op.toNat ≠ 0)
    (hlt : op.toNat < 46) :
    decode ([op, b1, b2, b3] ++ tail) = decodeOpcode op.toNat b1 b2 b3 (tail.getD 0 0) (tail.getD 1 0) := by
  have hw : widthOfOpcode op = 4 := if_neg hpos
  rcases decode_cons op ([b1, b2, b3] ++ tail) with ⟨h, -⟩ | ⟨-, h, -⟩ | ⟨-, -, h⟩
  · omega
  · simp only [hw, List.length_append, List.length_cons] at h
    omega
  · exact h

theorem Instr.width_pos (i : Instr) : 0 < i.width := by
  cases i <;> exact Nat.succ_pos _

/-- The width of a decoded instruction is that of its opcode (R83). -/
theorem decodeOpcode_width {op : Nat} {b1 b2 b3 b4 b5 : Byte} {i : Instr}
    (h : decodeOpcode op b1 b2 b3 b4 b5 = .instr i) : i.width = if op = 0 then 8 else 4 := by
  unfold decodeOpcode at h
  split at h <;> cases h <;> rfl

/-- An instruction is decoded only where all its bytes stand (R90). -/
theorem width_le_length_of_decode {bytes : List Byte} {i : Instr} (h : decode bytes = .instr i) :
    i.width ≤ bytes.length := by
  cases bytes with
  | nil => cases h
  | cons op rest =>
    rcases decode_cons op rest with ⟨-, e⟩ | ⟨-, -, e⟩ | ⟨-, hlen, e⟩ <;> rw [e] at h
    · cases h
    · cases h
    · rw [decodeOpcode_width h]
      exact hlen

end Sys2Proof

namespace Sys2Proof.Machine

/-- Settles O16: the bytes from pc on are at least as many as the instruction's width. -/
theorem nextPcNeverWraps : Obligations.NextPcNeverWraps := by
  intro s i hlen hfetch
  have hwidth : i.width ≤ s.progLen - s.pc.toNat := by
    simpa [State.bytesAtPc, State.progLen] using width_le_length_of_decode hfetch
  have hpos : 0 < i.width := i.width_pos
  have hend : s.pc.toNat + i.width ≤ s.progLen := by omega
  refine ⟨hend, ?_⟩
  rw [BitVec.toNat_add, BitVec.toNat_ofNat, Nat.add_mod_mod, Nat.mod_eq_of_lt (by omega)]

/-! ### Integer arithmetic -/

section Integer

variable {s : State} {ra rb rd : RegField}

/-- With good fields a three-register integer instruction is one register step. -/
theorem intBinary_registerStep (f : Int → Int → Int) (hok : s.fieldsOk [ra, rb, rd] = true) :
    ∃ t, intBinary f ra rb rd s = .next t ∧
      RegisterStep s t rd (u32 (f (sint (s.reg ra)) (sint (s.reg rb)))) 4 :=
  ⟨_, checkFields_ok _ hok, s.setReg_registerStep rd _ 4⟩

/-- With good fields and a nonzero divisor DIV and MOD are one register step. -/
theorem intDivide_registerStep (f : Int → Int → Int) (hok : s.fieldsOk [ra, rb, rd] = true)
    (hrb : s.reg rb ≠ 0) :
    ∃ t, intDivide f ra rb rd s = .next t ∧
      RegisterStep s t rd (u32 (f (sint (s.reg ra)) (sint (s.reg rb)))) 4 := by
  have hne : sint (s.reg rb) ≠ 0 := fun h => hrb (BitVec.eq_of_toInt_eq h)
  exact ⟨_, (checkFields_ok _ hok).trans (if_neg hne), s.setReg_registerStep rd _ 4⟩

/-- With good fields a zero divisor raises DivideByZero. -/
theorem intDivide_zero (f : Int → Int → Int) (hok : s.fieldsOk [ra, rb, rd] = true)
    (hrb : s.reg rb = 0) : intDivide f ra rb rd s = .next (s.raise .divideByZero) := by
  have hzero : sint (s.reg rb) = 0 := by rw [hrb]; rfl
  exact (checkFields_ok _ hok).trans (if_pos hzero)

end Integer

/-- Settles O31. -/
theorem addSubtractMultiply : Obligations.AddSubtractMultiply := by
  refine ⟨fun ra rb rd tail => ⟨?_, ?_, ?_⟩, fun s ra rb rd hok => ⟨?_, ?_, ?_⟩⟩
  · exact decode_four_bytes (op := 0x03) ra rb rd tail (by decide) (by decide)
  · exact decode_four_bytes (op := 0x04) ra rb rd tail (by decide) (by decide)
  · exact decode_four_bytes (op := 0x05) ra rb rd tail (by decide) (by decide)
  · exact intBinary_registerStep (fun a b => a + b) hok
  · exact intBinary_registerStep (fun a b => a - b) hok
  · exact intBinary_registerStep (fun a b => a * b) hok

/-- Settles O32; R11's remainder is the library's truncating one. -/
theorem divideAndRemainder : Obligations.DivideAndRemainder := by
  refine ⟨fun ra rb rd tail => ⟨?_, ?_⟩, fun s ra rb rd hok => ⟨fun hrb => ⟨?_, ?_⟩, fun hrb => ⟨?_, ?_⟩⟩⟩
  · exact decode_four_bytes (op := 0x06) ra rb rd tail (by decide) (by decide)
  · exact decode_four_bytes (op := 0x07) ra rb rd tail (by decide) (by decide)
  · exact intDivide_registerStep tdiv hok hrb
  · rw [Int.tmod_def]
    exact intDivide_registerStep trem hok hrb
  · exact ⟨_, intDivide_zero tdiv hok hrb, s.raise_faultStep _⟩
  · exact ⟨_, intDivide_zero trem hok hrb, s.raise_faultStep _⟩

end Sys2Proof.Machine
end

section
/-! Binary32: rounding is to nearest with ties to even, exact results are rounded once, and infinite
operands. -/

namespace Sys2Proof.Machine

/-! ### Rounding to a whole number -/

section WholeNumber

variable {num den : Nat} (hden : 0 < den)
include hden

/-- No whole number is nearer to num / den than the rounded one. -/
theorem roundHalfEven_nearest (k : Nat) :
    |(num : ℤ) - roundHalfEven num den * den| ≤ |(num : ℤ) - k * den| := by
  obtain ⟨hlo, hhi⟩ := roundHalfEven_near (num := num) hden
  generalize roundHalfEven num den = r at *
  rcases lt_trichotomy k r with hk | rfl | hk
  · have hgap : (k + 1) * den ≤ r * den := Nat.mul_le_mul_right _ hk
    have habs := le_abs_self ((num : ℤ) - k * den)
    zify at hlo hhi hgap
    exact abs_le.mpr ⟨by linarith, by linarith⟩
  · exact le_rfl
  · have hgap : (r + 1) * den ≤ k * den := Nat.mul_le_mul_right _ hk
    have habs := neg_abs_le ((num : ℤ) - k * den)
    zify at hlo hhi hgap
    exact abs_le.mpr ⟨by linarith, by linarith⟩

/-- Where another whole number is as near, num / den lies half-way and the rounded number is even. -/
theorem roundHalfEven_even_of_equidistant {k : Nat} (hk : k ≠ roundHalfEven num den)
    (h : |(num : ℤ) - roundHalfEven num den * den| = |(num : ℤ) - k * den|) :
    roundHalfEven num den % 2 = 0 := by
  obtain ⟨hlo, hhi⟩ := roundHalfEven_near (num := num) hden
  apply roundHalfEven_tie hden
  generalize roundHalfEven num den = r at *
  rcases abs_eq_abs.mp h with h | h
  · have heq : (r : ℤ) * den = k * den := by linarith
    exact absurd (Nat.eq_of_mul_eq_mul_right hden (by exact_mod_cast heq)) hk.symm
  · have hsum : 2 * num = r * den + k * den := by zify; linarith
    rcases Nat.lt_or_gt_of_ne hk with hk | hk
    · have hgap : (k + 1) * den ≤ r * den := Nat.mul_le_mul_right _ hk
      right; linarith
    · have hgap : (r + 1) * den ≤ k * den := Nat.mul_le_mul_right _ hk
      left; linarith

/-- Below k + 1/2 the rounded number is at most k. -/
theorem roundHalfEven_le_of_lt_half {k : Nat} (h : 2 * num < (2 * k + 1) * den) :
    roundHalfEven num den ≤ k := by
  obtain ⟨-, hhi⟩ := roundHalfEven_near (num := num) hden
  by_contra! hlt
  have hgap : (k + 1) * den ≤ roundHalfEven num den * den := Nat.mul_le_mul_right _ hlt
  linarith

/-- From k + 1/2 on, k odd, the rounded number is above k: the tie itself goes up to the even number. -/
theorem lt_roundHalfEven_of_half_le {k : Nat} (hodd : k % 2 = 1) (h : (2 * k + 1) * den ≤ 2 * num) :
    k < roundHalfEven num den := by
  obtain ⟨hlo, -⟩ := roundHalfEven_near (num := num) hden
  have htie := roundHalfEven_tie (num := num) hden
  by_contra! hle
  have hgap : roundHalfEven num den * den ≤ k * den := Nat.mul_le_mul_right _ hle
  have heven := htie (.inl (by linarith))
  have hmul : k * den ≤ roundHalfEven num den * den := by linarith
  have hge : k ≤ roundHalfEven num den := Nat.le_of_mul_le_mul_right hmul hden
  omega

end WholeNumber

/-! ### Rounding to a pattern -/

/-- The rounded multiple of the spacing 2^q. -/
def roundedSignificand (num den : Nat) : Nat :=
  roundHalfEven num (den * 2 ^ spacingExponent num den)

theorem roundedBits_eq (num den : Nat) :
    roundedBits num den = 2 ^ 23 * spacingExponent num den + roundedSignificand num den := rfl

section Rounding

variable {num den : Nat} (hden : 0 < den)
include hden

/-- The rounded significand has at most 24 bits or is 2^24, and, but for the subnormals, has the hidden
bit. -/
theorem roundedSignificand_bounds :
    roundedSignificand num den ≤ 2 ^ 24 ∧
      (spacingExponent num den = 0 ∨ 2 ^ 23 ≤ roundedSignificand num den) := by
  obtain ⟨hhi, hlo⟩ := spacingExponent_bounds (num := num) hden
  unfold roundedSignificand
  generalize spacingExponent num den = q at *
  have hspacing : 0 < den * 2 ^ q := by positivity
  refine ⟨roundHalfEven_le_of_lt_half hspacing (by linarith), hlo.imp_right fun hlo => ?_⟩
  exact lt_roundHalfEven_of_half_le (k := 2 ^ 23 - 1) hspacing (by norm_num) (by norm_num at hlo ⊢; linarith)

/-- From half a unit above the largest finite datum on, the rounded bits reach the infinity's. -/
theorem infinityBits_le_roundedBits (h : (2 ^ 25 - 1) * 2 ^ 252 * den ≤ num) :
    infinityBits ≤ roundedBits num den := by
  obtain ⟨hhi, -⟩ := spacingExponent_bounds (num := num) hden
  obtain ⟨-, hsig⟩ := roundedSignificand_bounds (num := num) hden
  rw [roundedBits_eq]
  unfold infinityBits
  have hq : 252 < spacingExponent num den := by
    by_contra! hle
    have hpow : 2 ^ spacingExponent num den ≤ 2 ^ 252 := Nat.pow_le_pow_right (by norm_num) hle
    have hcap : 2 ^ 24 * 2 ^ spacingExponent num den * den ≤ (2 ^ 25 - 1) * 2 ^ 252 * den :=
      Nat.mul_le_mul_right _ (Nat.mul_le_mul (by norm_num) hpow)
    omega
  by_cases hq' : spacingExponent num den = 253
  · have hcarry : 2 ^ 24 - 1 < roundedSignificand num den := by
      unfold roundedSignificand
      rw [hq']
      refine lt_roundHalfEven_of_half_le (by positivity) (by norm_num) ?_
      calc (2 * (2 ^ 24 - 1) + 1) * (den * 2 ^ 253) = 2 * ((2 ^ 25 - 1) * 2 ^ 252 * den) := by ring
        _ ≤ 2 * num := Nat.mul_le_mul_left _ h
    omega
  · omega

/-- Below it they stay under the infinity's. -/
theorem roundedBits_lt_infinityBits (h : num < (2 ^ 25 - 1) * 2 ^ 252 * den) :
    roundedBits num den < infinityBits := by
  obtain ⟨-, hlo⟩ := spacingExponent_bounds (num := num) hden
  obtain ⟨hsig, -⟩ := roundedSignificand_bounds (num := num) hden
  rw [roundedBits_eq]
  unfold infinityBits
  have hq : spacingExponent num den ≤ 253 := by
    by_contra! hgt
    have hpow : 2 ^ 254 ≤ 2 ^ spacingExponent num den := Nat.pow_le_pow_right (by norm_num) hgt
    have hfloor : (2 ^ 25 - 1) * 2 ^ 252 * den ≤ 2 ^ 23 * 2 ^ spacingExponent num den * den := by
      refine Nat.mul_le_mul_right _ (le_trans ?_ (Nat.mul_le_mul_left _ hpow))
      norm_num
    omega
  by_cases hq' : spacingExponent num den = 253
  · have hfits : roundedSignificand num den ≤ 2 ^ 24 - 1 := by
      unfold roundedSignificand
      rw [hq']
      refine roundHalfEven_le_of_lt_half (by positivity) ?_
      calc 2 * num < 2 * ((2 ^ 25 - 1) * 2 ^ 252 * den) := Nat.mul_lt_mul_of_pos_left h (by norm_num)
        _ = (2 * (2 ^ 24 - 1) + 1) * (den * 2 ^ 253) := by ring
    omega
  · omega

end Rounding

/-- A finite datum is a multiple of 2^q or lies below the 2^23 multiples of 2^q that need no hidden bit. -/
theorem f32_finite_multiple {w : Word} {neg : Bool} {mag : Nat} (h : f32 w = .finite neg mag) (q : Nat) :
    2 ^ q ∣ mag ∨ mag < 2 ^ 23 * 2 ^ q := by
  have hfrac : w.toNat % 2 ^ 23 < 2 ^ 23 := Nat.mod_lt _ (by norm_num)
  unfold f32 at h
  dsimp only at h
  generalize w.toNat / 2 ^ 23 % 256 = exponent at h
  split at h
  · split at h <;> cases h
  · split at h
    · obtain ⟨-, rfl⟩ := Datum.finite.inj h
      exact .inr (hfrac.trans_le (Nat.le_mul_of_pos_right _ (by positivity)))
    · obtain ⟨-, rfl⟩ := Datum.finite.inj h
      rcases Nat.lt_or_ge (exponent - 1) q with hq | hq
      · right
        calc _ < 2 ^ 24 * 2 ^ (exponent - 1) := Nat.mul_lt_mul_of_pos_right (by omega) (by positivity)
          _ = 2 ^ 23 * 2 ^ (exponent - 1 + 1) := by ring
          _ ≤ 2 ^ 23 * 2 ^ q := Nat.mul_le_mul_left _ (Nat.pow_le_pow_right (by norm_num) hq)
      · exact .inl (Dvd.dvd.mul_left (pow_dvd_pow 2 hq) _)

/-- The rounded multiple of the spacing is nearest among all finite data, even where another is as near:
data above 2^23 spacings are multiples of the spacing, and a datum below is farther than 2^23 spacings. -/
theorem roundedSignificand_nearest {num den : Nat} (hden : 0 < den) {w : Word} {neg : Bool}
    {mag other : Nat} (hmag : mag = roundedSignificand num den * 2 ^ spacingExponent num den)
    (hw : f32 w = .finite neg other) :
    |(num : ℤ) - mag * den| ≤ |(num : ℤ) - other * den| ∧
      (|(num : ℤ) - mag * den| = |(num : ℤ) - other * den| → other ≠ mag →
        roundedSignificand num den % 2 = 0) := by
  obtain ⟨-, hlo⟩ := spacingExponent_bounds (num := num) hden
  have hmultiple := f32_finite_multiple hw (spacingExponent num den)
  subst hmag
  unfold roundedSignificand
  generalize spacingExponent num den = q at *
  have hspacing : 0 < den * 2 ^ q := by positivity
  have hscale (k : Nat) : ((k * 2 ^ q : Nat) : ℤ) * den = k * (den * 2 ^ q : Nat) := by push_cast; ring
  have hnear := roundHalfEven_nearest (num := num) hspacing
  rw [hscale]
  by_cases hdvd : 2 ^ q ∣ other
  · obtain ⟨k, rfl⟩ := exists_eq_mul_left_of_dvd hdvd
    rw [hscale]
    refine ⟨hnear k, fun heq hne => roundHalfEven_even_of_equidistant hspacing ?_ heq⟩
    rintro rfl
    exact hne rfl
  · have hq : q ≠ 0 := by rintro rfl; exact hdvd (one_dvd _)
    have hfar : other * den < 2 ^ 23 * 2 ^ q * den :=
      Nat.mul_lt_mul_of_pos_right (hmultiple.resolve_left hdvd) hden
    have hbelow := hlo.resolve_left hq
    have hfloor : |(num : ℤ) - (2 ^ 23 : Nat) * (den * 2 ^ q : Nat)| < |(num : ℤ) - other * den| := by
      rw [← hscale]
      zify at hfar hbelow
      push_cast
      rw [abs_of_nonneg (by linarith), abs_of_nonneg (by linarith)]
      linarith
    have hlt := (hnear (2 ^ 23)).trans_lt hfloor
    exact ⟨hlt.le, fun heq => absurd heq hlt.ne⟩

/-- Settles O37. -/
theorem roundingIsToNearestTiesToEven : Obligations.RoundingIsToNearestTiesToEven := by
  intro neg num den hden
  refine ⟨fun h => ?_, fun h => ?_⟩
  · exact congrArg (withSign neg) (min_eq_right (infinityBits_le_roundedBits hden h))
  · have hlt := roundedBits_lt_infinityBits hden h
    have hbits : rne32 neg num den = withSign neg (roundedBits num den) :=
      congrArg (withSign neg) (min_eq_left hlt.le)
    obtain ⟨hle, hnormal⟩ := roundedSignificand_bounds (num := num) hden
    have hdatum := f32_withSign_spacing (neg := neg) hle hnormal (roundedBits_eq num den ▸ hlt)
    rw [hbits]
    refine ⟨_, hdatum, fun w other hw => ?_⟩
    obtain ⟨hnear, heven⟩ := roundedSignificand_nearest (num := num) hden rfl hw
    refine ⟨hnear, fun heq hne => ?_⟩
    have hsig := heven heq hne
    unfold infinityBits at hlt
    rw [withSign_toNat (by omega), roundedBits_eq]
    cases neg <;> simp only [Bool.false_eq_true, if_true, if_false] <;> omega

end Sys2Proof.Machine
end

section
/-! Binary32: exact results are rounded once, and infinite operands. -/

namespace Sys2Proof.Machine

/-! ### Exact results -/

theorem abs_signedMag (neg : Bool) (mag : Nat) : |signedMag neg mag| = mag := by
  cases neg <;> simp [signedMag]

theorem signedMag_not (neg : Bool) (mag : Nat) : signedMag (!neg) mag = -signedMag neg mag := by
  cases neg <;> simp [signedMag]

/-- The sign of an exact product is the XOR of the signs. -/
theorem signedMag_mul (na nb : Bool) (ma mb : Nat) :
    signedMag na ma * signedMag nb mb = signedMag (na ^^ nb) (ma * mb) := by
  cases na <;> cases nb <;> simp [signedMag]

/-- The sign of an exact quotient is the XOR of the signs. -/
theorem signedMag_div (na nb : Bool) (ma mb : Nat) :
    (signedMag na ma : ℚ) / signedMag nb mb = signedMag (na ^^ nb) ma / mb := by
  cases na <;> cases nb <;> simp [signedMag, neg_div, div_neg]

theorem signedMag_scale (neg : Bool) (k mag : Nat) : signedMag neg (k * mag) = k * signedMag neg mag := by
  cases neg <;> simp [signedMag]

theorem signedMag_neg_iff {neg : Bool} {mag : Nat} (h : mag ≠ 0) : signedMag neg mag < 0 ↔ neg = true := by
  cases neg
  · simp [signedMag]
  · simp [signedMag, Nat.pos_of_ne_zero h]

/-- Every integer is the magnitude of its own with its own sign. -/
theorem signedMag_natAbs (n : Int) : signedMag (decide (n < 0)) n.natAbs = n := by
  unfold signedMag
  by_cases h : n < 0
  · rw [if_pos (decide_eq_true h)]
    omega
  · rw [if_neg (by simpa using h)]
    omega

/-- Only a finite datum has a rational value. -/
theorem Datum.toRat_eq_some {a : Datum} {x : ℚ} (h : a.toRat = some x) :
    ∃ neg mag, a = .finite neg mag ∧ x = (signedMag neg mag : ℚ) / 2 ^ 149 := by
  cases a with
  | nan => cases h
  | infinite neg => cases h
  | finite neg mag => exact ⟨neg, mag, rfl, (Option.some.inj h).symm⟩

/-- The value of the datum with the other sign. -/
theorem Datum.toRat_negate {a : Datum} {x : ℚ} (h : a.toRat = some x) : a.negate.toRat = some (-x) := by
  obtain ⟨neg, mag, rfl, rfl⟩ := Datum.toRat_eq_some h
  simp only [Datum.negate, Datum.toRat, signedMag_not, Int.cast_neg, neg_div]

/-- `r` is rne32 of the nonzero exact value `z`, as a sign and a fraction in units of 2^-149. -/
def RoundsTo (r : Option Word) (z : ℚ) : Prop :=
  z ≠ 0 → ∃ num den : Nat, 0 < den ∧ |z| * 2 ^ 149 = (num : ℚ) / den ∧
    r = some (rne32 (decide (z < 0)) num den)

/-- What rne32 takes of a sign, a numerator and a denominator is the value they stand for. -/
theorem RoundsTo.of_signedMag {r : Option Word} {z : ℚ} {neg : Bool} {num den : Nat} (hden : 0 < den)
    (hz : z = signedMag neg num / (den * 2 ^ 149)) (hr : r = some (rne32 neg num den)) : RoundsTo r z := by
  intro hne
  have hscale : (0 : ℚ) < den * 2 ^ 149 := by positivity
  have hnum : num ≠ 0 := by
    rintro rfl
    exact hne (by simpa [signedMag] using hz)
  have hneg : z < 0 ↔ neg = true := by
    rw [hz, div_lt_iff₀ hscale, zero_mul, Int.cast_lt_zero, signedMag_neg_iff hnum]
  have hsign : decide (z < 0) = neg := by simp [hneg]
  refine ⟨num, den, hden, ?_, ?_⟩
  · have habs : |(signedMag neg num : ℚ)| = num := by exact_mod_cast abs_signedMag neg num
    rw [hz, abs_div, abs_of_pos hscale, habs]
    field_simp
  · rw [hr, hsign]

section Exact

variable {a b : Datum} {x y : ℚ} (ha : a.toRat = some x) (hb : b.toRat = some y)
include ha hb

theorem floatAdd_roundsTo : RoundsTo (floatAdd a b) (x + y) := by
  obtain ⟨na, ma, rfl, rfl⟩ := Datum.toRat_eq_some ha
  obtain ⟨nb, mb, rfl, rfl⟩ := Datum.toRat_eq_some hb
  have hval : (signedMag na ma : ℚ) / 2 ^ 149 + signedMag nb mb / 2 ^ 149 =
      (signedMag na ma + signedMag nb mb : ℤ) / 2 ^ 149 := by push_cast; ring
  rw [hval]
  simp only [floatAdd]
  generalize signedMag na ma + signedMag nb mb = sum
  intro hne
  have hsum : sum ≠ 0 := by
    rintro rfl
    simp at hne
  refine RoundsTo.of_signedMag one_pos ?_ rfl hne
  rw [if_neg hsum, signedMag_natAbs, Nat.cast_one, one_mul]

/-- Subtraction is addition of the other sign. -/
theorem floatSub_roundsTo : RoundsTo (floatSub a b) (x - y) := by
  rw [sub_eq_add_neg]
  exact floatAdd_roundsTo ha (Datum.toRat_negate hb)

theorem floatMul_roundsTo : RoundsTo (floatMul a b) (x * y) := by
  obtain ⟨na, ma, rfl, rfl⟩ := Datum.toRat_eq_some ha
  obtain ⟨nb, mb, rfl, rfl⟩ := Datum.toRat_eq_some hb
  refine RoundsTo.of_signedMag (Nat.two_pow_pos 149) ?_ rfl
  rw [← signedMag_mul]
  push_cast
  ring

theorem floatDiv_roundsTo (hy : y ≠ 0) : RoundsTo (floatDiv a b) (x / y) := by
  obtain ⟨na, ma, rfl, rfl⟩ := Datum.toRat_eq_some ha
  obtain ⟨nb, mb, rfl, rfl⟩ := Datum.toRat_eq_some hb
  have hmb : mb ≠ 0 := by
    rintro rfl
    simp [signedMag] at hy
  refine RoundsTo.of_signedMag (Nat.pos_of_ne_zero hmb) ?_ (if_neg hmb)
  have hunits : (unitsPerOne : ℚ) = 2 ^ 149 := by norm_num [unitsPerOne]
  rw [div_div_div_cancel_right₀ (by positivity), signedMag_div, signedMag_scale, Int.cast_mul,
    Int.cast_natCast, hunits]
  field_simp

end Exact

/-- Settles O36. -/
theorem floatResultsRoundTheExactValueOnce : Obligations.FloatResultsRoundTheExactValueOnce :=
  fun _ _ _ _ ha hb => ⟨floatAdd_roundsTo ha hb, floatSub_roundsTo ha hb, floatMul_roundsTo ha hb,
    floatDiv_roundsTo ha hb⟩

/-! ### Infinite operands -/

/-- Settles O59. -/
theorem infiniteOperands : Obligations.InfiniteOperands := by
  unfold Obligations.InfiniteOperands
  intro zero infinity
  have hinf : ∀ neg, infinityOf neg = infinity neg := infinityOf_pattern
  have hzero : ∀ neg, withSign neg 0 = zero neg := withSign_zero
  simp only [← hinf, ← hzero]
  refine ⟨fun neg => ⟨trivial, f32_infinityOf neg⟩, fun n m mag => ⟨rfl, rfl, rfl, rfl⟩, fun n => ⟨?_, ?_⟩,
    fun n m mag hmag => ⟨if_neg hmag, if_neg hmag⟩, fun n m => rfl, fun n m mag => ⟨rfl, rfl⟩⟩
  · exact if_pos rfl
  · simp only [floatSub, Datum.negate, Bool.not_not]
    exact if_pos rfl

end Sys2Proof.Machine
end

section
/-! What MALLOC's scan finds: the lowest base at which a block fits, and nothing where none does. -/

namespace Sys2Proof.Machine

/-! ### The scan and `Fits` -/

/-- A scan that starts at or below `b` takes no base above `b`, where `b` and the request lie between two
entries and some entry stands after them: every entry the scan passes ends at or below `b`. -/
theorem allocScan_le_of_gap {size b cursor : Nat} {segs : List Segment} (hcursor : cursor ≤ b)
    (hapart : ∀ g ∈ segs, b + size ≤ g.base ∨ g.base + g.len ≤ b) (hroom : ∃ g ∈ segs, b + size ≤ g.base) :
    ∃ r, allocScan size cursor segs = some r ∧ r.1 ≤ b := by
  induction segs generalizing cursor with
  | nil => simp at hroom
  | cons g rest ih =>
    rw [List.forall_mem_cons] at hapart
    rw [List.exists_mem_cons_iff] at hroom
    unfold allocScan
    split
    · exact ⟨_, rfl, hcursor⟩
    · next hfit =>
      have hnot : ¬b + size ≤ g.base := by omega
      obtain ⟨r, hr, hle⟩ := ih (hapart.1.resolve_left hnot) hapart.2 (hroom.resolve_left hnot)
      exact ⟨(r.1, g :: r.2), by rw [hr]; rfl, hle⟩

/-- The sentinel is the entry after every block that fits. -/
theorem Fits.allocScan_le {n b size : Nat} {segs : List Segment} (hfits : Fits n segs b size)
    (hok : SegmentsOk n segs) : ∃ r, allocScan size 0 segs = some r ∧ r.1 ≤ b := by
  have hsplit := List.dropLast_append_getLast? _ hok.sentinel
  refine allocScan_le_of_gap (Nat.zero_le b) (fun g hg => ?_)
    ⟨_, List.mem_of_getLast? hok.sentinel, hfits.below⟩
  rw [← hsplit] at hg
  rcases List.mem_append.mp hg with hg | hg
  · exact hfits.apart g hg
  · obtain rfl := List.mem_singleton.mp hg
    exact .inl hfits.below

/-- What Alloc takes fits: the entries before it end at or below its base, those after it begin past it. -/
theorem alloc_fits {c : Config} {segs : List Segment} {size : Nat} {r : Nat × List Segment}
    (hok : SegmentsOk c.heapH segs) (h : alloc c segs size = some r) : Fits c.heapH segs r.1 size := by
  obtain ⟨hscan, hbase, -⟩ := alloc_cases h
  obtain ⟨pre, g, post, rfl, hend, hfit, -, -⟩ := allocScan_cases hscan
  obtain ⟨hpre, hpost, -⟩ := List.pairwise_append.mp hok.ordered
  refine ⟨hfit.trans (hok.base_le (by simp)), hbase, fun q hq => ?_⟩
  rcases List.mem_append.mp (List.mem_of_mem_dropLast hq) with hq | hq
  · exact .inr (hend ▸ SegmentsOk.le_endOf hpre q hq)
  · rcases List.mem_cons.mp hq with rfl | hq
    · exact .inl hfit
    · exact .inl (hfit.trans ((List.pairwise_cons.mp hpost).1 q hq).1)

/-- Alloc records its block between two parts of the table, every other entry kept, and R34 with them. -/
theorem alloc_inserts {c : Config} {segs : List Segment} {size : Nat} {r : Nat × List Segment}
    (hok : SegmentsOk c.heapH segs) (h : alloc c segs size = some r) :
    (∃ pre post, segs = pre ++ post ∧ r.2 = pre ++ ⟨r.1, size⟩ :: post) ∧ SegmentsOk c.heapH r.2 := by
  obtain ⟨hscan, hbase, -⟩ := alloc_cases h
  obtain ⟨pre, g, post, rfl, hend, hfit, hr, -⟩ := allocScan_cases hscan
  exact ⟨⟨pre, g :: post, rfl, hr⟩, hr ▸ hok.insert hend hfit hbase⟩

/-- In a table that is not full Alloc takes a base no higher than any that fits. -/
theorem Fits.alloc_le {c : Config} {segs : List Segment} {b size : Nat} (hfits : Fits c.heapH segs b size)
    (hok : SegmentsOk c.heapH segs) (hcap : segs.length ≠ c.segCap) :
    ∃ r, alloc c segs size = some r ∧ r.1 ≤ b := by
  obtain ⟨r, hscan, hle⟩ := hfits.allocScan_le hok
  have hbase : ¬c.heapH - 1 ≤ r.1 := by have := hfits.base_below; omega
  exact ⟨r, by simp [alloc, hscan, hbase, hcap], hle⟩

/-! ### MALLOC -/

section Malloc

variable {s : State} {size dst : RegField}

/-- `23 size dst pp` is MALLOC, the size register first. -/
theorem decode_malloc (a d p : Byte) (tail : List Byte) :
    decode ([0x23, a, d, p] ++ tail) = .instr (.malloc a d) :=
  decode_four_bytes a d p tail (by decide) (by decide)

theorem exec_malloc_of_none (hok : s.fieldsOk [size, dst] = true)
    (h : alloc s.cfg s.segs (uint (s.reg size)) = none) :
    exec (.malloc size dst) s = .next (s.raise .outOfMemory) :=
  (checkFields_ok _ hok).trans (by rw [h])

theorem exec_malloc_of_some {base : Nat} {segs' : List Segment} (hok : s.fieldsOk [size, dst] = true)
    (h : alloc s.cfg s.segs (uint (s.reg size)) = some (base, segs')) :
    exec (.malloc size dst) s =
      .next (((s.setSegs segs').setReg dst (u32 ((base : Int) + s.cfg.ptrBias))).advance 4) :=
  (checkFields_ok _ hok).trans (by rw [h]; rfl)

end Malloc

/-- Settles O51: first fit by gap is lowest fit by base. -/
theorem mallocTakesTheLowestFit : Obligations.MallocTakesTheLowestFit := by
  refine ⟨decode_malloc, fun s size dst hok hsegs hcap ⟨b, hb⟩ => ?_⟩
  obtain ⟨⟨base, segs'⟩, halloc, -⟩ := hb.alloc_le hsegs hcap
  obtain ⟨hinserts, hkeeps⟩ := alloc_inserts hsegs halloc
  have hlowest : ∀ b', Fits s.cfg.heapH s.segs b' (s.reg size).toNat → base ≤ b' := by
    intro b' hb'
    obtain ⟨r, hr, hle⟩ := hb'.alloc_le hsegs hcap
    obtain rfl := Option.some.inj (halloc.symm.trans hr)
    exact hle
  have hptr : u32 ((base : Int) + s.cfg.ptrBias) = BitVec.ofNat 32 (base + s.cfg.ptrBias) := by
    rw [← Nat.cast_add, u32, BitVec.ofInt_natCast]
  refine ⟨_, base, exec_malloc_of_some hok halloc, alloc_fits hsegs halloc,
    fun b' hlt hb' => (hlowest b' hb').not_gt hlt, hinserts, hkeeps, ?_,
    fun r hr => State.reg_setReg_other _ _ hr, rfl, State.memRead_congr rfl rfl rfl, rfl⟩
  rw [State.reg_advance, State.reg_setReg_same, hptr]

/-- Settles O52: what Alloc takes fits and its table was not full. -/
theorem mallocOutOfMemoryFaults : Obligations.MallocOutOfMemoryFaults := by
  refine ⟨decode_malloc, fun s size dst hok hsegs hnone => ?_⟩
  have halloc : alloc s.cfg s.segs (uint (s.reg size)) = none := by
    refine Option.eq_none_iff_forall_ne_some.mpr fun r hr => ?_
    rcases hnone with hnofit | hfull
    · exact hnofit r.1 (alloc_fits hsegs hr)
    · obtain ⟨-, -, hcap⟩ := alloc_cases hr
      exact hcap hfull
  exact ⟨_, exec_malloc_of_none hok halloc, s.raise_faultStep _⟩

end Sys2Proof.Machine
end

section
/-! The field check stands first, every instruction answers a next state, and which effect touches which
state. -/

namespace Sys2Proof.Machine

variable {s t : State} {i : Instr}

/-! ### The field check and totality -/

/-- Every meaning begins with the check of the fields its instruction uses (R97, log 7); HLT, SREAD and
SWRITE use none. -/
theorem exec_eq_checkFields (i : Instr) (s : State) : ∃ rule, exec i s = checkFields i.regFields s rule := by
  cases i <;> exact ⟨_, rfl⟩

theorem exec_of_badFields (h : s.fieldsOk i.regFields = false) : exec i s = .next (s.raise .badRegister) := by
  obtain ⟨rule, hrule⟩ := exec_eq_checkFields i s
  rw [hrule, checkFields_bad _ h]

theorem checkFields_answers {fields : List RegField} {rule : Result} (h : ∃ t, rule = .next t) :
    ∃ t, checkFields fields s rule = .next t := by
  cases hok : s.fieldsOk fields with
  | false => exact ⟨_, checkFields_bad _ hok⟩
  | true => rwa [checkFields_ok _ hok]

/-- No instruction is refused and none ends in a fault of the model (R92, R276). -/
theorem exec_answers (i : Instr) (s : State) : ∃ t, exec i s = .next t := by
  cases i with
  | hlt | sread | swrite => exact ⟨_, rfl⟩
  | load | inc | dec | add | sub | mul | fadd | fsub | fmul | fdiv | eq | ne | gt | lt | gtq | ltq | feq
  | fne | fgt | flt | fgtq | fltq | jmp | jeq | jne | ftoi | itof | i32 | f32 | print | mov =>
    exact checkFields_answers ⟨_, rfl⟩
  | div | mod | push | spush | pop | spop | read | write | malloc =>
    refine checkFields_answers ?_
    split <;> exact ⟨_, rfl⟩
  | jmpf | jmpb =>
    refine checkFields_answers ?_
    unfold jumpRelative
    split <;> exact ⟨_, rfl⟩
  | free =>
    refine checkFields_answers ?_
    split
    · exact ⟨_, rfl⟩
    · split <;> exact ⟨_, rfl⟩

/-! ### STATUS -/

theorem executeFaultOf_ne_badRegister (i : Instr) : executeFaultOf i ≠ some .badRegister := by
  cases i <;> simp [executeFaultOf]

/-- What an instruction with good fields can leave in STATUS. -/
theorem Effect.engine_cases (he : Effect s i t) (hok : s.fieldsOk i.regFields = true) :
    t.engine = s.engine ∨ t.engine = .success ∨ ∃ k, executeFaultOf i = some k ∧ t.engine = .fault k := by
  cases he with
  | badRegister hbad => simp [hok] at hbad
  | ruleFault _ hk => exact .inr (.inr ⟨_, hk, rfl⟩)
  | halt => exact .inr (.inl rfl)
  | _ => exact .inl (by simp)

/-- Settles O10: a bad field is found before the opcode's rule, and no rule raises BadRegister. -/
theorem badRegisterExactlyOnBadFields : Obligations.BadRegisterExactlyOnBadFields := by
  refine fun i s => ⟨fun ⟨f, hf, hle⟩ => ?_, fun hlt hrun => ?_⟩
  · have hbad : s.fieldsOk i.regFields = false := by
      rw [← Bool.not_eq_true, State.fieldsOk_iff]
      exact fun hall => hle.not_gt (hall f hf)
    exact ⟨_, exec_of_badFields hbad, s.raise_faultStep _⟩
  · obtain ⟨t, ht⟩ := exec_answers i s
    refine ⟨t, ht, fun hfault => ?_⟩
    have hcases := (exec_effect ht).engine_cases ((s.fieldsOk_iff _).mpr hlt)
    rw [hfault, hrun] at hcases
    rcases hcases with h | h | ⟨k, hk, h⟩
    · cases h
    · cases h
    · obtain rfl := Engine.fault.inj h
      exact executeFaultOf_ne_badRegister i hk

/-! ### What each effect touches -/

/-- Settles O17: an effect on registers, pc or STATUS touches none of the five, and each effect that one
opcode alone has touches only that opcode's. -/
theorem onlyTheirInstructionsChangeState : Obligations.OnlyTheirInstructionsChangeState := by
  intro i s t h
  cases exec_effect h with
  | badRegister | ruleFault | register | floatResult | jump | fallThrough | halt => simp
  | print => simp
  | push | spush | pop | spop => simp
  | @write _ _ p => cases p <;> simp
  | malloc | free => simp

end Sys2Proof.Machine
end

section
/-! The data behind the state and the host's view of it: canonical memories, the STATUS word, RESET,
LOAD_PROGRAM and the host's reads. -/

namespace Sys2Proof.Machine

/-! ### Canonical memories (log 3) -/

theorem Memory.wf_cons (a : Nat) (v : Word) (m : Memory) :
    Memory.wf ((a, v) :: m) = true ↔ v ≠ 0 ∧ (∀ c ∈ m, a < c.1) ∧ m.wf = true := by
  simp only [Memory.wf_iff, List.pairwise_cons, List.forall_mem_cons]
  tauto

theorem Memory.read_eq_zero {m : Memory} {k : Nat} (h : ∀ c ∈ m, c.1 ≠ k) : m.read k = 0 := by
  induction m with
  | nil => rfl
  | cons c rest ih =>
    obtain ⟨hc, hrest⟩ := List.forall_mem_cons.mp h
    exact (if_neg hc).trans (ih hrest)

/-- In canonical form the lowest listed index is the lowest that does not read 0. -/
theorem Memory.head_le_of_read_ne_zero {a k : Nat} {v : Word} {m : Memory}
    (h : Memory.wf ((a, v) :: m) = true) (hk : Memory.read ((a, v) :: m) k ≠ 0) : a ≤ k := by
  obtain ⟨-, hlt, -⟩ := (Memory.wf_cons a v m).mp h
  by_contra hka
  refine hk (Memory.read_eq_zero (List.forall_mem_cons.mpr ⟨by dsimp only; omega, fun c hc => ?_⟩))
  have := hlt c hc
  omega

theorem Memory.head_read_ne_zero {a : Nat} {v : Word} {m : Memory}
    (h : Memory.wf ((a, v) :: m) = true) : Memory.read ((a, v) :: m) a ≠ 0 := by
  rw [Memory.read_cons, if_pos rfl]
  exact ((Memory.wf_cons a v m).mp h).1

/-- Settles O21, by induction on the entries: the first ones stand at the same index and hold the same
word, and at that index both rests read 0. -/
theorem canonicalMemoriesReadingAlikeAreEqual : Obligations.CanonicalMemoriesReadingAlikeAreEqual := by
  intro m
  induction m with
  | nil =>
    intro n _ hn hread
    cases n with
    | nil => rfl
    | cons d n => exact absurd (hread d.1).symm (Memory.head_read_ne_zero hn)
  | cons c m ih =>
    intro n hm hn hread
    obtain ⟨a, v⟩ := c
    cases n with
    | nil => exact absurd (hread a) (Memory.head_read_ne_zero hm)
    | cons d n =>
      obtain ⟨b, w⟩ := d
      have hab : a = b := le_antisymm
        (Memory.head_le_of_read_ne_zero hm (hread b ▸ Memory.head_read_ne_zero hn))
        (Memory.head_le_of_read_ne_zero hn (hread a ▸ Memory.head_read_ne_zero hm))
      subst hab
      obtain ⟨-, hma, hm⟩ := (Memory.wf_cons a v m).mp hm
      obtain ⟨-, hna, hn⟩ := (Memory.wf_cons a w n).mp hn
      simp only [Memory.read_cons] at hread
      have hvw : v = w := by simpa using hread a
      have hrest : ∀ k, Memory.read m k = Memory.read n k := by
        intro k
        by_cases hk : a = k
        · subst hk
          rw [Memory.read_eq_zero fun c hc => (hma c hc).ne', Memory.read_eq_zero fun c hc => (hna c hc).ne']
        · simpa [hk] using hread k
      rw [hvw, ih n hm hn hrest]

/-! ### STATUS -/

/-- The four fields of the STATUS word (R31). -/
theorem State.statusWord_fields (s : State) :
    s.statusWord.extractLsb' 0 2 = s.engine.stateField ∧ s.statusWord.extractLsb' 2 2 = 0 ∧
      s.statusWord.extractLsb' 4 4 = s.engine.kindField ∧ s.statusWord.extractLsb' 8 24 = 0 := by
  unfold State.statusWord
  refine ⟨?_, ?_, ?_, ?_⟩
  · rw [BitVec.extractLsb'_append_eq_of_add_le (by decide), BitVec.extractLsb'_eq_self]
  · rw [BitVec.extractLsb'_append_eq_of_le (by decide), BitVec.extractLsb'_append_eq_of_add_le (by decide),
      BitVec.extractLsb'_eq_self]
  · rw [BitVec.extractLsb'_append_eq_of_le (by decide), BitVec.extractLsb'_append_eq_of_le (by decide),
      BitVec.extractLsb'_append_eq_of_add_le (by decide), BitVec.extractLsb'_eq_self]
  · rw [BitVec.extractLsb'_append_eq_of_le (by decide), BitVec.extractLsb'_append_eq_of_le (by decide),
      BitVec.extractLsb'_append_eq_of_le (by decide), BitVec.extractLsb'_eq_self]

theorem State.statusWord_of_idle {s : State} (h : s.engine = .idle) : s.statusWord = 0 := by
  rw [State.statusWord, h]; rfl

theorem State.statusWord_of_running {s : State} (h : s.engine = .running) : s.statusWord = 1 := by
  rw [State.statusWord, h]; rfl

theorem State.statusWord_of_success {s : State} (h : s.engine = .success) : s.statusWord = 2 := by
  rw [State.statusWord, h]; rfl

/-- The constructors stand in the order of their codes, which begin at 1 (R241). -/
theorem FaultKind.code_eq (k : FaultKind) : k.code = k.ctorIdx + 1 := by
  cases k <;> rfl

theorem FaultKind.code_injective : Function.Injective FaultKind.code := by
  intro j k h
  rw [FaultKind.code_eq, FaultKind.code_eq, Nat.add_right_cancel_iff] at h
  rw [← FaultKind.ofNat_ctorIdx j, h, FaultKind.ofNat_ctorIdx]

/-- Every code fits the four bits of KIND. -/
theorem FaultKind.code_lt (k : FaultKind) : k.code < 2 ^ 4 := by
  cases k <;> decide

/-- Settles O23. -/
theorem statusRegisterLayout : Obligations.StatusRegisterLayout := by
  refine ⟨fun s => ?_, rfl, rfl, rfl, rfl, rfl, rfl, rfl, rfl, rfl, rfl, rfl,
    fun _ _ h => FaultKind.code_injective h⟩
  obtain ⟨hstate, hlow, hkind, hhigh⟩ := s.statusWord_fields
  refine ⟨hlow, hhigh, State.statusWord_of_idle, State.statusWord_of_running, State.statusWord_of_success,
    fun k hk => ⟨?_, ?_⟩⟩
  · rw [hstate, hk, Engine.stateField]
  · rw [hkind, hk, Engine.kindField, BitVec.toNat_ofNat, Nat.mod_eq_of_lt k.code_lt]

/-! ### Host commands -/

/-- Settles O24: after RESET, and after power-on, the state is `State.resetWith` with an output and a draw
counter of its own. -/
theorem resetSetsEveryReset : Obligations.ResetSetsEveryReset := by
  unfold Obligations.ResetSetsEveryReset
  intro AtReset
  have hreset (c : Config) (out : List Word) (draws : Nat) :
      AtReset { State.resetWith c with output := out, nanDraws := draws } :=
    ⟨Memory.read_nil, rfl, rfl, rfl, rfl, Memory.read_nil, Memory.read_nil, rfl, State.statusWord_of_idle rfl⟩
  exact ⟨hreset Config.default [] 0, rfl, rfl,
    fun s => ⟨s.hostReset, rfl, hreset s.cfg s.output s.nanDraws, rfl, rfl⟩⟩

theorem hostCommand_loadProgram {s : State} {bytes : List Byte} (hquiet : s.engine ≠ .running)
    (hlen : bytes.length < 2 ^ 32) : hostCommand (.loadProgram bytes) s = .next (s.hostLoad bytes) :=
  (if_neg hquiet).trans (if_neg hlen.not_ge)

/-- Settles O25. -/
theorem loadProgramKeepsStackAndHeap : Obligations.LoadProgramKeepsStackAndHeap :=
  fun s bytes hquiet hlen =>
    ⟨s.hostLoad bytes, hostCommand_loadProgram hquiet hlen, rfl, rfl, Memory.read_nil, rfl,
      State.statusWord_of_idle rfl, rfl, rfl, rfl, rfl, rfl, rfl⟩

/-! ### Host reads -/

/-- A number below 2^32 is read whole as a word. -/
theorem hostQuiet_ofNat {s : State} (hquiet : s.engine ≠ .running) {n : Nat} (hn : n < 2 ^ 32) :
    ∃ w : Word, hostQuiet s (.next (BitVec.ofNat 32 n)) = .next w ∧ w.toNat = n :=
  ⟨_, hostQuiet_of_ne hquiet _, by rw [BitVec.toNat_ofNat, Nat.mod_eq_of_lt hn]⟩

theorem hostQuiet_element {s : State} (hquiet : s.engine ≠ .running) {k n : Nat} (hk : k < n) (v : Word) :
    hostQuiet s (hostElement (decide (k < n)) v) = .next v :=
  (hostQuiet_of_ne hquiet _).trans (hostElement_of_lt hk v)

theorem hostRead_progByte {s : State} (hquiet : s.engine ≠ .running) {a : Nat} {b : Byte}
    (hb : s.prog[a]? = some b) : hostRead (.progByte a) s = .next (b.setWidth 32) := by
  obtain ⟨hlt, -⟩ := List.getElem?_eq_some_iff.mp hb
  have hget : s.prog.getD a 0 = b := by rw [List.getD_eq_getElem?_getD, hb, Option.getD_some]
  exact hget ▸ hostQuiet_element hquiet hlt _

/-- STATUS is the one word the host reads while Running (R270). -/
theorem hostRead_of_running {s : State} (hrun : s.engine = .running) {q : HostRead} (hq : q ≠ .status) :
    hostRead q s = .refused .hostReadWhileRunning := by
  cases q with
  | status => exact absurd rfl hq
  | _ => exact hostQuiet_of_running hrun _

/-- Settles O27. -/
theorem hostReadsTheFinalState : Obligations.HostReadsTheFinalState := by
  refine fun s => ⟨rfl, rfl, fun hquiet => ⟨fun r hr => ?_, ?_, fun hsp => ?_, fun k hk => ?_, fun k hk => ?_,
    ?_, fun hlen => ?_, fun a b hb => ?_⟩, fun hrun => ⟨fun q hq => ?_, ?_⟩⟩
  · exact hostQuiet_element hquiet hr _
  · exact hostQuiet_of_ne hquiet _
  · exact hostQuiet_ofNat hquiet hsp
  · exact hostQuiet_element hquiet hk _
  · exact hostQuiet_element hquiet hk _
  · exact hostQuiet_of_ne hquiet _
  · exact hostQuiet_ofNat hquiet hlen
  · exact ⟨_, hostRead_progByte hquiet hb, BitVec.toNat_setWidth_of_le (by decide)⟩
  · exact hostRead_of_running hrun hq
  · exact hostQuiet_of_running hrun _

end Sys2Proof.Machine
end

section
/-! The unified data space and the segment table behind READ, WRITE and FREE: what a word reads after a
write, what lies beyond the space, and which entry Free finds. -/

namespace Sys2Proof.Machine

/-! ### The unified data space (R51, R52, R60) -/

section Space

variable {s : State} {a : Nat}

theorem translate_of_lt_stackN {c : Config} (h : a < c.stackN) : translate c a = some (.stack a) :=
  if_pos h

theorem translate_of_stackN_le {c : Config} (hle : c.stackN ≤ a) (hlt : a < c.stackN + c.heapH) :
    translate c a = some (.heap (a - c.stackN)) :=
  (if_neg hle.not_gt).trans (if_pos (by omega))

theorem translate_of_beyond {c : Config} (h : c.stackN + c.heapH ≤ a) : translate c a = none :=
  (if_neg (by omega)).trans (if_neg (by omega))

theorem exists_translate {c : Config} (h : a < c.stackN + c.heapH) : ∃ p, translate c a = some p := by
  rcases lt_or_ge a c.stackN with hlt | hle
  · exact ⟨_, translate_of_lt_stackN hlt⟩
  · exact ⟨_, translate_of_stackN_le hle h⟩

theorem State.memRead_of_translate {p : Place} (h : translate s.cfg a = some p) :
    s.memRead a = some (s.readPlace p) := by
  rw [State.memRead, h, Option.map_some]

theorem State.memRead_of_beyond (h : s.cfg.stackN + s.cfg.heapH ≤ a) : s.memRead a = none := by
  rw [State.memRead, translate_of_beyond h, Option.map_none]

theorem State.memWrite_of_translate {p : Place} (h : translate s.cfg a = some p) (v : Word) :
    s.memWrite a v = some (s.writePlace p v) := by
  rw [State.memWrite, h, Option.map_some]

theorem State.memWrite_of_beyond (h : s.cfg.stackN + s.cfg.heapH ≤ a) (v : Word) :
    s.memWrite a v = none := by
  rw [State.memWrite, translate_of_beyond h, Option.map_none]

theorem State.memRead_writePlace_same {p : Place} (h : translate s.cfg a = some p) (v : Word) :
    (s.writePlace p v).memRead a = some v := by
  rw [State.memRead_of_translate (by rwa [State.writePlace_cfg]), State.readPlace_writePlace_same]

/-- No other address reaches the place written. -/
theorem State.memRead_writePlace_other {b : Nat} {p : Place} (h : translate s.cfg a = some p) (v : Word)
    (hb : b ≠ a) : (s.writePlace p v).memRead b = s.memRead b := by
  unfold State.memRead
  rw [State.writePlace_cfg]
  cases hq : translate s.cfg b with
  | none => rfl
  | some q =>
    have hne : q ≠ p := fun e => hb (translate_inj hq (e ▸ h))
    exact congrArg some (State.readPlace_writePlace_other s v hne)

end Space

/-- Settles O22: a write is a write to the one place its address reaches. -/
theorem unifiedReadAfterWrite : Obligations.UnifiedReadAfterWrite := by
  intro s t a v h
  obtain ⟨p, hp, rfl⟩ := State.memWrite_cases h
  exact ⟨State.memRead_writePlace_same hp v, fun b hb => State.memRead_writePlace_other hp v hb⟩

/-! ### READ and WRITE -/

section Access

variable {s : State} {src addr dst : RegField}

theorem exec_read_of_some {v : Word} (hok : s.fieldsOk [addr, dst] = true)
    (h : s.memRead (uint (s.reg addr)) = some v) :
    exec (.read addr dst) s = .next ((s.setReg dst v).advance 4) :=
  (checkFields_ok _ hok).trans (by rw [h]; rfl)

theorem exec_read_of_none (hok : s.fieldsOk [addr, dst] = true)
    (h : s.memRead (uint (s.reg addr)) = none) : exec (.read addr dst) s = .next (s.raise .badAddress) :=
  (checkFields_ok _ hok).trans (by rw [h])

theorem exec_write_of_some {t : State} (hok : s.fieldsOk [src, addr] = true)
    (h : s.memWrite (uint (s.reg addr)) (s.reg src) = some t) :
    exec (.write src addr) s = .next (t.advance 4) :=
  (checkFields_ok _ hok).trans (by rw [h])

theorem exec_write_of_none (hok : s.fieldsOk [src, addr] = true)
    (h : s.memWrite (uint (s.reg addr)) (s.reg src) = none) :
    exec (.write src addr) s = .next (s.raise .badAddress) :=
  (checkFields_ok _ hok).trans (by rw [h])

/-- READ of an address that reaches a place is one register step, the word at that place its result. -/
theorem exec_read_registerStep {p : Place} (hok : s.fieldsOk [addr, dst] = true)
    (h : translate s.cfg (uint (s.reg addr)) = some p) :
    ∃ t, exec (.read addr dst) s = .next t ∧ RegisterStep s t dst (s.readPlace p) 4 :=
  ⟨_, exec_read_of_some hok (State.memRead_of_translate h), s.setReg_registerStep dst _ 4⟩

end Access

/-- Settles O48: the three ranges of an address are the three answers of Translate. -/
theorem readLoadsFromTheUnifiedSpace : Obligations.ReadLoadsFromTheUnifiedSpace := by
  refine ⟨fun a d p tail => ?_, fun s addr dst hok => ⟨fun hlt => ?_, fun hle hlt => ?_, fun hge => ?_⟩⟩
  · exact decode_four_bytes a d p tail (by decide) (by decide)
  · exact exec_read_registerStep hok (translate_of_lt_stackN hlt)
  · exact exec_read_registerStep hok (translate_of_stackN_le hle hlt)
  · exact ⟨_, exec_read_of_none hok (State.memRead_of_beyond hge), s.raise_faultStep _⟩

/-- Settles O49: the address reaches one place, which takes the word; the range of the address says
whether that is a slot or an arena word. -/
theorem writeStoresToTheUnifiedSpace : Obligations.WriteStoresToTheUnifiedSpace := by
  refine ⟨fun r a p tail => ?_, fun s src addr hok => ⟨fun hlt => ?_, fun hge => ?_⟩⟩
  · exact decode_four_bytes r a p tail (by decide) (by decide)
  · obtain ⟨p, hp⟩ := exists_translate hlt
    refine ⟨_, exec_write_of_some hok (State.memWrite_of_translate hp _),
      State.memRead_writePlace_same hp _, fun b hb => State.memRead_writePlace_other hp _ hb,
      fun hstack => ?_, fun hheap => ?_, ?_, ?_⟩
    · obtain rfl := Option.some.inj (hp.symm.trans (translate_of_lt_stackN hstack))
      exact ⟨Memory.read_write_same _ _ _, rfl⟩
    · obtain rfl := Option.some.inj (hp.symm.trans (translate_of_stackN_le hheap hlt))
      exact ⟨Memory.read_write_same _ _ _, rfl⟩
    · rw [State.advance_pc, State.writePlace_pc]
      rfl
    · cases p <;> rfl
  · exact ⟨_, exec_write_of_none hok (State.memWrite_of_beyond hge _), s.raise_faultStep _⟩

/-! ### FREE (R68, R211) -/

/-- Free fails exactly where no live entry has the base. -/
theorem release_eq_none_iff {segs : List Segment} {b : Nat} :
    release segs b = none ↔ ∀ g ∈ segs.dropLast, g.base ≠ b := by
  refine ⟨release_none, fun hnone => Option.eq_none_iff_forall_ne_some.mpr fun segs' h => ?_⟩
  obtain ⟨pre, g, post, rfl, hpost, hg, -, -⟩ := release_cases h
  have hlive : g ∈ (pre ++ g :: post).dropLast := by
    rw [List.dropLast_append_cons, List.dropLast_cons_of_ne_nil hpost]
    simp
  exact hnone g hlive hg

section Free

variable {s : State} {ptr : RegField}

/-- A pointer is the biased base of what Free removes (R71). -/
theorem exec_free_of_release {b : Nat} {segs' : List Segment} (hok : s.fieldsOk [ptr] = true)
    (hb : b + s.cfg.ptrBias = uint (s.reg ptr)) (h : release s.segs b = some segs') :
    exec (.free ptr) s = .next ((s.setSegs segs').advance 4) := by
  have hsub : uint (s.reg ptr) - s.cfg.ptrBias = b := by omega
  refine (checkFields_ok _ hok).trans ((if_neg (by omega)).trans ?_)
  rw [hsub, h]

/-- A pointer below PTR_BIAS is the biased base of nothing. -/
theorem exec_free_of_no_release (hok : s.fieldsOk [ptr] = true)
    (h : ∀ b, b + s.cfg.ptrBias = uint (s.reg ptr) → release s.segs b = none) :
    exec (.free ptr) s = .next (s.raise .invalidFree) := by
  refine (checkFields_ok _ hok).trans ?_
  rcases lt_or_ge (uint (s.reg ptr)) s.cfg.ptrBias with hlt | hle
  · exact if_pos hlt
  · rw [if_neg hle.not_gt, h _ (Nat.sub_add_cancel hle)]

end Free

/-- Settles O53: what Free removes is the first entry with the base of the live one the pointer names. -/
theorem freeRemovesTheFirstLiveEntry : Obligations.FreeRemovesTheFirstLiveEntry := by
  refine ⟨fun a p q tail => ?_, fun s ptr hok => ⟨fun ⟨g₀, hlive, hptr⟩ => ?_, fun hnone => ?_⟩⟩
  · exact decode_four_bytes a p q tail (by decide) (by decide)
  · obtain ⟨segs', hsegs'⟩ : ∃ segs', release s.segs g₀.base = some segs' :=
      Option.ne_none_iff_exists'.mp fun h => release_eq_none_iff.mp h g₀ hlive rfl
    obtain ⟨pre, g, post, hsplit, hpost, hbase, rfl, hfirst⟩ := release_cases hsegs'
    rw [← hbase] at hptr hfirst hsegs'
    exact ⟨_, pre, g, post, exec_free_of_release hok hptr hsegs', hsplit, hpost, hptr, hfirst, rfl, rfl,
      State.memRead_congr rfl rfl rfl, rfl⟩
  · refine ⟨_, exec_free_of_no_release hok fun b hb => release_eq_none_iff.mpr fun g hg hgb => ?_,
      s.raise_faultStep _⟩
    exact hnone g hg (hgb ▸ hb)

end Sys2Proof.Machine
end

section
/-! Encoding: the decoder's answer on each class of first bytes, decode of encode, padding, and what a
step does with each answer of the fetch. -/

namespace Sys2Proof

/-! ### The answers of the decoder (R87, R90) -/

/-- R83's width as the statements write it. -/
theorem widthOfOpcode_eq (op : Byte) : widthOfOpcode op = if op = 0 then 8 else 4 := by
  simp [widthOfOpcode, ← BitVec.toNat_inj]

section Decode

variable {op : Byte} {rest : List Byte}

theorem decode_of_illegal (h : 46 ≤ op.toNat) : decode (op :: rest) = .illegalOpcode :=
  if_pos h

theorem decode_of_truncated (hlt : op.toNat < 46) (hlen : rest.length + 1 < widthOfOpcode op) :
    decode (op :: rest) = .truncated :=
  (if_neg hlt.not_ge).trans (if_pos hlen)

theorem decode_of_width_le (hlt : op.toNat < 46) (hlen : widthOfOpcode op ≤ rest.length + 1) :
    decode (op :: rest) = decodeOpcode op.toNat (rest.getD 0 0) (rest.getD 1 0) (rest.getD 2 0)
      (rest.getD 3 0) (rest.getD 4 0) :=
  (if_neg hlt.not_ge).trans (if_neg hlen.not_gt)

end Decode

/-- The 46 rows of the opcode map are those of the encoder: each opcode number is an instruction's, whose
encoding begins with it (R82). -/
theorem exists_decodeOpcode {op : Nat} (hlt : op < 46) (b1 b2 b3 b4 b5 : Byte) :
    ∃ i, decodeOpcode op b1 b2 b3 b4 b5 = .instr i ∧ (encode i).head? = some (BitVec.ofNat 8 op) := by
  interval_cases op <;> exact ⟨_, rfl, rfl⟩

/-- LOAD's eight bytes, the last two of any value, decode to LOAD whatever follows (R81, R85). -/
theorem decode_load (rd i0 i1 i2 i3 p q : Byte) (tail : List Byte) :
    decode ([0x00, rd, i0, i1, i2, i3, p, q] ++ tail) = .instr (.load rd (le32 i0 i1 i2 i3)) := by
  have hlen : widthOfOpcode 0x00 ≤ ([rd, i0, i1, i2, i3, p, q] ++ tail).length + 1 := by
    simp [widthOfOpcode]
  exact decode_of_width_le (by decide) hlen

/-- The table read back: the encoder and the decoder agree row by row, and LOAD's literal is assembled
from the bytes it was cut into. -/
theorem decode_encode (i : Instr) (tail : List Byte) : decode (encode i ++ tail) = .instr i := by
  cases i with
  | load rd imm =>
    calc decode (encode (.load rd imm) ++ tail)
      _ = .instr (.load rd (le32 (byteOf imm 0) (byteOf imm 1) (byteOf imm 2) (byteOf imm 3))) :=
        decode_load rd _ _ _ _ 0 0 tail
      _ = .instr (.load rd imm) := by rw [le32_byteOf]
  | add a b d | sub a b d | mul a b d | div a b d | mod a b d | fadd a b d | fsub a b d | fmul a b d
  | fdiv a b d | eq a b d | ne a b d | gt a b d | lt a b d | gtq a b d | ltq a b d | feq a b d | fne a b d
  | fgt a b d | flt a b d | fgtq a b d | fltq a b d =>
    exact decode_four_bytes a b d tail (by decide) (by decide)
  | jeq a b | jne a b | read a b | write a b | malloc a b | ftoi a b | itof a b | i32 a b | f32 a b
  | mov a b | sread a b | swrite a b =>
    exact decode_four_bytes a b 0 tail (by decide) (by decide)
  | inc r | dec r | jmp r | jmpf r | jmpb r | push r | spush r | pop r | spop r | free r | print r =>
    exact decode_four_bytes r 0 0 tail (by decide) (by decide)
  | hlt => exact decode_four_bytes 0 0 0 tail (by decide) (by decide)

/-- Settles O1. -/
theorem decodeOfEncodeIsTheInstruction : Obligations.DecodeOfEncodeIsTheInstruction :=
  decode_encode

/-- Settles O2: the three tests of the decoder, in its order. -/
theorem decoderOutcomesFollowOpcodeAndLength : Obligations.DecoderOutcomesFollowOpcodeAndLength := by
  refine ⟨rfl, fun op rest => ?_⟩
  rw [← widthOfOpcode_eq]
  refine ⟨decode_of_illegal, decode_of_truncated, fun hlt hlen => ?_⟩
  obtain ⟨i, hi, hhead⟩ := exists_decodeOpcode hlt (rest.getD 0 0) (rest.getD 1 0) (rest.getD 2 0)
    (rest.getD 3 0) (rest.getD 4 0)
  refine ⟨i, (decode_of_width_le hlt hlen).trans hi, ?_, decodeOpcode_width hi⟩
  rw [hhead, BitVec.ofNat_toNat, BitVec.setWidth_eq]

/-- Settles O3: no row of format R1 takes b2 or b3 as an operand, and none of format R2 takes b3. -/
theorem paddingBytesAreIgnored : Obligations.PaddingBytesAreIgnored := by
  refine ⟨fun rd i0 i1 i2 i3 => ⟨_, ?_, ?_, decode_load rd i0 i1 i2 i3⟩, fun op r hop => ?_,
    fun op r1 r2 hop => ?_⟩
  · rfl
  · rfl
  · fin_cases hop <;>
      exact ⟨_, rfl, rfl, fun p q tail => decode_four_bytes r p q tail (by decide) (by decide)⟩
  · fin_cases hop <;>
      exact ⟨_, rfl, rfl, fun p tail => decode_four_bytes r1 r2 p tail (by decide) (by decide)⟩

/-- Settles O4: each word is the encoding of its instruction. -/
theorem exampleWordsDecode : Obligations.ExampleWordsDecode :=
  ⟨decode_encode (.load 0 5) [], decode_encode (.add 0 1 2) [], decode_encode (.fdiv 0 1 2) [],
    decode_encode (.flt 0 1 2) [], decode_encode (.jeq 0 3) [], decode_encode (.pop 1) [],
    decode_encode (.write 2 1) [], decode_encode (.free 1) [], decode_encode (.ftoi 2 3) [],
    decode_encode (.mov 0 7) []⟩

end Sys2Proof

namespace Sys2Proof.Machine

variable {s : State}

/-! ### A step, by what is fetched (R97, R274) -/

theorem step_of_not_running (h : s.engine ≠ .running) : step s = .next s := by
  unfold step
  split
  case h_4 he => exact absurd he h
  all_goals rfl

section Running

variable (hrun : s.engine = .running)
include hrun

theorem step_of_endOfProgram (h : s.fetch = .endOfProgram) : step s = .next s.endOfProgram := by
  simp only [step, hrun, h]

theorem step_of_illegalOpcode (h : s.fetch = .illegalOpcode) : step s = .next (s.raise .illegalOpcode) := by
  simp only [step, hrun, h]

theorem step_of_truncated (h : s.fetch = .truncated) : step s = .next (s.raise .truncatedInstruction) := by
  simp only [step, hrun, h]

theorem step_of_instr {i : Instr} (h : s.fetch = .instr i) : step s = exec i s := by
  simp only [step, hrun, h]

end Running

/-- Settles O11: a fetch that yields no instruction halts or faults, and every instruction answers. -/
theorem everyStepAnswersNext : Obligations.EveryStepAnswersNext := by
  intro s
  by_cases hrun : s.engine = .running
  · cases hf : s.fetch with
    | endOfProgram => exact ⟨_, step_of_endOfProgram hrun hf⟩
    | illegalOpcode => exact ⟨_, step_of_illegalOpcode hrun hf⟩
    | truncated => exact ⟨_, step_of_truncated hrun hf⟩
    | instr i =>
      rw [step_of_instr hrun hf]
      exact exec_answers i s
  · exact ⟨s, step_of_not_running hrun⟩

/-- Settles O5. -/
theorem stepRunsTheDecodedInstruction : Obligations.StepRunsTheDecodedInstruction :=
  fun _ _ hrun hdecode => step_of_instr hrun hdecode

/-! ### A fetch that yields no instruction -/

theorem State.fetch_of_end (h : s.progLen ≤ s.pc.toNat) : s.fetch = .endOfProgram := by
  rw [State.fetch, s.bytesAtPc_eq_nil.mpr h]
  rfl

section ByteAtPc

variable {op : Byte} (hop : s.prog[s.pc.toNat]? = some op)
include hop

theorem State.fetch_of_illegal (h : 46 ≤ op.toNat) : s.fetch = .illegalOpcode := by
  rw [State.fetch, State.bytesAtPc_cons hop, decode_of_illegal h]

/-- The bytes left are those from pc to the end of the program, the opcode byte among them. -/
theorem State.fetch_of_truncated (hlt : op.toNat < 46) (hend : s.progLen < s.pc.toNat + widthOfOpcode op) :
    s.fetch = .truncated := by
  have hpc : s.pc.toNat < s.progLen := (List.getElem?_eq_some_iff.mp hop).1
  have hlen : (s.prog.drop (s.pc.toNat + 1)).length = s.progLen - (s.pc.toNat + 1) := List.length_drop
  rw [State.fetch, State.bytesAtPc_cons hop, decode_of_truncated hlt (by omega)]

end ByteAtPc

/-- Settles O7. -/
theorem endOfProgramHaltsWithSuccess : Obligations.EndOfProgramHaltsWithSuccess :=
  fun _ hrun hend =>
    ⟨_, step_of_endOfProgram hrun (State.fetch_of_end hend), State.statusWord_of_success rfl, rfl⟩

/-- Settles O8. -/
theorem illegalOpcodeFaults : Obligations.IllegalOpcodeFaults :=
  fun s _ hrun hop hge =>
    ⟨_, step_of_illegalOpcode hrun (State.fetch_of_illegal hop hge), s.raise_faultStep _⟩

/-- Settles O9. -/
theorem truncatedInstructionFaults : Obligations.TruncatedInstructionFaults := by
  intro s op hrun hop hlt hend
  rw [← widthOfOpcode_eq] at hend
  exact ⟨_, step_of_truncated hrun (State.fetch_of_truncated hop hlt hend), s.raise_faultStep _⟩

/-- Settles O50: the meaning of both is the fault, with no field check before it. -/
theorem unimplementedOpcodesAlwaysFault : Obligations.UnimplementedOpcodesAlwaysFault := by
  refine fun b1 b2 s => ⟨fun p tail => ⟨?_, ?_⟩, ⟨_, rfl, s.raise_faultStep _⟩, ⟨_, rfl, s.raise_faultStep _⟩⟩
  · exact decode_four_bytes (op := 0x2C) b1 b2 p tail (by decide) (by decide)
  · exact decode_four_bytes (op := 0x2D) b1 b2 p tail (by decide) (by decide)

end Sys2Proof.Machine
end

section
/-! The literal load. -/

namespace Sys2Proof.Machine

/-- With a good field LOAD is one register step of 8 bytes, the literal its result (R110). -/
theorem exec_load_registerStep {s : State} {rd : RegField} (imm : Word) (hok : s.fieldsOk [rd] = true) :
    ∃ t, exec (.load rd imm) s = .next t ∧ RegisterStep s t rd imm 8 :=
  ⟨_, checkFields_ok _ hok, s.setReg_registerStep rd imm 8⟩

/-- Settles O29: the literal is R10's little-endian sum of the four bytes. -/
theorem loadWritesTheLiteral : Obligations.LoadWritesTheLiteral := by
  refine ⟨fun rd i0 i1 i2 i3 p q tail => ?_, fun s rd imm hok => ?_⟩
  · exact ⟨le32 i0 i1 i2 i3, le32_toNat i0 i1 i2 i3, decode_load rd i0 i1 i2 i3 p q tail⟩
  · exact exec_load_registerStep imm hok

end Sys2Proof.Machine
end

section
/-! The wrapped integer results: in place, under the unsigned reading, and as quotient and remainder. -/

namespace Sys2Proof.Machine

/-- With a good field a one-register integer instruction is one register step. -/
theorem intUnary_registerStep {s : State} {r : RegField} (f : Int → Int) (hok : s.fieldsOk [r] = true) :
    ∃ t, intUnary f r s = .next t ∧ RegisterStep s t r (u32 (f (sint (s.reg r)))) 4 :=
  ⟨_, checkFields_ok _ hok, s.setReg_registerStep r _ 4⟩

/-- Settles O30: both are the one-register instruction, the exact result wrapped. -/
theorem incrementAndDecrement : Obligations.IncrementAndDecrement := by
  refine ⟨fun r p q tail => ⟨?_, ?_⟩, fun s r hok => ⟨?_, ?_⟩⟩
  · exact decode_four_bytes (op := 0x01) r p q tail (by decide) (by decide)
  · exact decode_four_bytes (op := 0x02) r p q tail (by decide) (by decide)
  · exact intUnary_registerStep (fun a => a + 1) hok
  · exact intUnary_registerStep (fun a => a - 1) hok

/-- What a run that is one register step leaves in its destination. -/
theorem reg_of_registerStep {s t : State} {i : Instr} {rd : RegField} {v : Word} {width : Nat}
    (hstep : ∃ u, exec i s = .next u ∧ RegisterStep s u rd v width) (hrun : exec i s = .next t) :
    t.reg rd = v := by
  obtain ⟨u, hu, hreg⟩ := hstep
  obtain rfl := Host.Outcome.next.inj (hu.symm.trans hrun)
  exact hreg.result

/-! ### The signed result, wrapped, is the result on words (R120) -/

section Wrap

variable (a b : Word)

theorem u32_sint_add : u32 (sint a + sint b) = a + b := by
  rw [u32, BitVec.ofInt_add, BitVec.ofInt_toInt, BitVec.ofInt_toInt]

theorem u32_sint_sub : u32 (sint a - sint b) = a - b :=
  BitVec.eq_of_toInt_eq (by rw [BitVec.toInt_ofInt, BitVec.toInt_sub])

theorem u32_mul_sint (n : Int) : u32 (n * sint b) = u32 n * b := by
  rw [u32, BitVec.ofInt_mul, BitVec.ofInt_toInt]

theorem toNat_u32_sint_add : (u32 (sint a + sint b)).toNat = (a.toNat + b.toNat) % 2 ^ 32 := by
  rw [u32_sint_add, BitVec.toNat_add]

theorem toNat_u32_sint_sub : (u32 (sint a - sint b)).toNat = (2 ^ 32 + a.toNat - b.toNat) % 2 ^ 32 := by
  have hb : b.toNat < 2 ^ 32 := b.isLt
  rw [u32_sint_sub, BitVec.toNat_sub, Nat.sub_add_comm hb.le]

theorem toNat_u32_sint_mul : (u32 (sint a * sint b)).toNat = (a.toNat * b.toNat) % 2 ^ 32 := by
  rw [u32_mul_sint, u32, BitVec.ofInt_toInt, BitVec.toNat_mul]

/-- The wrapped quotient and remainder make up the dividend: the exact ones do, whatever the divisor, so
-2^31 / -1 (D17) is no exception. -/
theorem u32_tdiv_mul_add_u32_tmod :
    u32 (Int.tdiv (sint a) (sint b)) * b + u32 (Int.tmod (sint a) (sint b)) = a := by
  rw [← u32_mul_sint, u32, u32, ← BitVec.ofInt_add, Int.tdiv_mul_add_tmod, BitVec.ofInt_toInt]

end Wrap

/-- Settles O33: INC and DEC are the sum and the difference with the word 1. -/
theorem wrappedResultsAgreeWithUnsigned : Obligations.WrappedResultsAgreeWithUnsigned := by
  intro s t ra rb rd hok
  have hrd : s.fieldsOk [rd] = true :=
    (s.fieldsOk_iff _).mpr fun f hf => (s.fieldsOk_iff _).mp hok f (.tail _ (.tail _ hf))
  obtain ⟨hadd, hsub, hmul⟩ := addSubtractMultiply.2 s ra rb rd hok
  obtain ⟨hinc, hdec⟩ := incrementAndDecrement.2 s rd hrd
  refine ⟨fun h => ?_, fun h => ?_, fun h => ?_, fun h => ?_, fun h => ?_⟩
  · rw [reg_of_registerStep hadd h]
    exact toNat_u32_sint_add _ _
  · rw [reg_of_registerStep hsub h]
    exact toNat_u32_sint_sub _ _
  · rw [reg_of_registerStep hmul h]
    exact toNat_u32_sint_mul _ _
  · rw [reg_of_registerStep hinc h]
    exact toNat_u32_sint_add _ 1
  · rw [reg_of_registerStep hdec h]
    exact toNat_u32_sint_sub _ 1

/-- Settles O34: the law holds of the exact quotient and remainder, and wrapping keeps sums and products. -/
theorem quotientAndRemainderLaw : Obligations.QuotientAndRemainderLaw := by
  intro s t u ra rb rd hok hrb ht hu
  obtain ⟨hdiv, hmod⟩ := (divideAndRemainder.2 s ra rb rd hok).1 hrb
  rw [reg_of_registerStep hdiv ht, reg_of_registerStep hmod hu]
  exact u32_tdiv_mul_add_u32_tmod _ _

end Sys2Proof.Machine
end

section
/-! Binary32: the float instructions complete, the operations that give a NaN, exact zeros, and the signs of
products and quotients. -/

namespace Sys2Proof.Machine

/-! ### The four instructions -/

/-- A pattern whose bits 30 to 22 are set is a quiet NaN (R9). -/
theorem IsQuietNaN.of_getLsbD {v : Word} (h : ∀ i, 22 ≤ i → i ≤ 30 → v.getLsbD i = true) :
    IsQuietNaN v := by
  have hmask : ∀ i < 32, (0x7FC00000 : Word).getLsbD i = true → 22 ≤ i ∧ i ≤ 30 := by decide
  refine BitVec.eq_of_getLsbD_eq fun i hi => ?_
  rw [BitVec.getLsbD_and, Bool.and_eq_right_iff_imp]
  intro hset
  obtain ⟨hlo, hhi⟩ := hmask i hi hset
  exact h i hlo hhi

theorem nanResult_isQuietNaN (k : Nat) : IsQuietNaN (nanResult k) :=
  .of_getLsbD (nanResult_getLsbD k)

/-- `t` is `s` with the float result `r` retired to `rd`: the pattern, or some quiet NaN where there is
none. -/
def FloatStep (s t : State) (rd : RegField) (r : Option Word) : Prop :=
  (∀ v, r = some v → RegisterStep s t rd v 4) ∧
    (r = none → IsQuietNaN (t.reg rd) ∧ OthersKept s t rd ∧ t.pc = s.pc + 4 ∧ RestKept s t)

/-- A drawn NaN is a register step but for the counter of the draws. -/
theorem State.setFloat_floatStep (s : State) (rd : RegField) (r : Option Word) :
    FloatStep s ((s.setFloat rd r).advance 4) rd r := by
  cases r with
  | some v =>
    refine ⟨fun w hw => ?_, nofun⟩
    obtain rfl := Option.some.inj hw
    exact s.setReg_registerStep rd v 4
  | none =>
    obtain ⟨hresult, hothers, hpc, -, -⟩ := s.setReg_registerStep rd (nanResult s.nanDraws) 4
    refine ⟨nofun, fun _ => ⟨?_, hothers, hpc, .of_fields rfl rfl rfl rfl rfl rfl rfl rfl⟩⟩
    exact hresult.symm ▸ nanResult_isQuietNaN s.nanDraws

/-- With good fields a float instruction completes (R140 item 7). -/
theorem floatBinary_floatStep {s : State} {ra rb rd : RegField} (f : Datum → Datum → Option Word)
    (hok : s.fieldsOk [ra, rb, rd] = true) :
    ∃ t, floatBinary f ra rb rd s = .next t ∧ FloatStep s t rd (f (f32 (s.reg ra)) (f32 (s.reg rb))) :=
  ⟨_, checkFields_ok _ hok, s.setFloat_floatStep rd _⟩

/-- Settles O35. -/
theorem floatArithmeticCompletes : Obligations.FloatArithmeticCompletes := by
  refine ⟨fun ra rb rd tail => ⟨?_, ?_, ?_, ?_⟩, fun s ra rb rd hok => ⟨?_, ?_, ?_, ?_⟩⟩
  · exact decode_four_bytes (op := 0x08) ra rb rd tail (by decide) (by decide)
  · exact decode_four_bytes (op := 0x09) ra rb rd tail (by decide) (by decide)
  · exact decode_four_bytes (op := 0x0A) ra rb rd tail (by decide) (by decide)
  · exact decode_four_bytes (op := 0x0B) ra rb rd tail (by decide) (by decide)
  · exact floatBinary_floatStep floatAdd hok
  · exact floatBinary_floatStep floatSub hok
  · exact floatBinary_floatStep floatMul hok
  · exact floatBinary_floatStep floatDiv hok

/-! ### The operations that give a NaN -/

section NaN

variable (a b : Datum)

theorem floatAdd_eq_none_iff :
    floatAdd a b = none ↔ a = .nan ∨ b = .nan ∨ ∃ n, a = .infinite n ∧ b = .infinite (!n) := by
  cases a with
  | nan => simp [floatAdd]
  | infinite na =>
    cases b with
    | nan | finite => simp [floatAdd]
    | infinite nb => cases na <;> cases nb <;> simp [floatAdd]
  | finite na ma => cases b <;> simp [floatAdd]

theorem Datum.negate_eq_nan_iff : b.negate = .nan ↔ b = .nan := by
  cases b <;> simp [Datum.negate]

theorem Datum.negate_eq_infinite_not_iff (neg : Bool) : b.negate = .infinite (!neg) ↔ b = .infinite neg := by
  cases b <;> simp [Datum.negate]

/-- Subtraction is addition of the other sign. -/
theorem floatSub_eq_none_iff :
    floatSub a b = none ↔ a = .nan ∨ b = .nan ∨ ∃ n, a = .infinite n ∧ b = .infinite n := by
  rw [floatSub, floatAdd_eq_none_iff, Datum.negate_eq_nan_iff]
  simp only [Datum.negate_eq_infinite_not_iff]

theorem floatMul_eq_none_iff :
    floatMul a b = none ↔ a = .nan ∨ b = .nan ∨
      (∃ n m, a = .infinite n ∧ b = .finite m 0) ∨ ∃ n m, a = .finite n 0 ∧ b = .infinite m := by
  cases a with
  | nan => simp [floatMul]
  | infinite na => cases b <;> simp [floatMul]
  | finite na ma => cases b <;> simp [floatMul]

theorem floatDiv_eq_none_iff :
    floatDiv a b = none ↔ a = .nan ∨ b = .nan ∨
      (∃ n m, a = .infinite n ∧ b = .infinite m) ∨ ∃ n m, a = .finite n 0 ∧ b = .finite m 0 := by
  cases a with
  | nan => simp [floatDiv]
  | infinite na => cases b <;> simp [floatDiv]
  | finite na ma =>
    cases b with
    | nan | infinite => simp [floatDiv]
    | finite nb mb => by_cases hmb : mb = 0 <;> simp [floatDiv, hmb]

end NaN

/-- Settles O38. -/
theorem naNExactlyOnInvalidOperations : Obligations.NaNExactlyOnInvalidOperations :=
  fun a b => ⟨floatAdd_eq_none_iff a b, floatSub_eq_none_iff a b, floatMul_eq_none_iff a b,
    floatDiv_eq_none_iff a b⟩

/-! ### Exact zeros -/

section Zero

variable {na nb : Bool} {ma mb : Nat}

theorem signedMag_zero (neg : Bool) : signedMag neg 0 = 0 := by
  cases neg <;> rfl

/-- An exact zero sum is -0 only where both signs are (R140 item 6). -/
theorem floatAdd_of_sum_zero (h : signedMag na ma + signedMag nb mb = 0) :
    floatAdd (.finite na ma) (.finite nb mb) = some (withSign (na && nb) 0) := by
  simp only [floatAdd, h, if_true, Int.natAbs_zero, rne32_zero]

/-- A datum and the one of the other sign add up to +0. -/
theorem floatAdd_not_self (neg : Bool) (mag : Nat) :
    floatAdd (.finite neg mag) (.finite (!neg) mag) = some (withSign false 0) := by
  rw [floatAdd_of_sum_zero (by rw [signedMag_not, add_neg_cancel]), Bool.and_not_self]

theorem floatAdd_zero_zero (n m : Bool) :
    floatAdd (.finite n 0) (.finite m 0) = some (withSign (n && m) 0) :=
  floatAdd_of_sum_zero (by rw [signedMag_zero, signedMag_zero, add_zero])

theorem floatMul_of_product_zero (h : ma * mb = 0) :
    floatMul (.finite na ma) (.finite nb mb) = some (withSign (na ^^ nb) 0) := by
  rw [floatMul, h, rne32_zero]

theorem floatDiv_zero_left (h : mb ≠ 0) :
    floatDiv (.finite na 0) (.finite nb mb) = some (withSign (na ^^ nb) 0) := by
  rw [floatDiv, if_neg h, Nat.mul_zero, rne32_zero]

/-- Division by zero is no fault (R144). -/
theorem floatDiv_zero_right (h : ma ≠ 0) :
    floatDiv (.finite na ma) (.finite nb 0) = some (infinityOf (na ^^ nb)) := by
  rw [floatDiv, if_pos rfl, if_neg h]

end Zero

/-! ### Signs of products and quotients -/

/-- The sign of a datum that is no NaN. -/
def Datum.sign : Datum → Option Bool
  | .nan => none
  | .infinite neg | .finite neg _ => some neg

/-- The sign of the datum a pattern encodes is its bit 31 (R9). -/
theorem f32_sign {w : Word} {neg : Bool} (h : (f32 w).sign = some neg) : w.msb = neg := by
  rw [BitVec.msb_eq_getLsbD_last]
  unfold f32 at h
  dsimp only at h
  split at h
  · split at h
    · exact Option.some.inj h
    · cases h
  · split at h <;> exact Option.some.inj h

theorem infinityOf_msb (neg : Bool) : (infinityOf neg).msb = neg :=
  withSign_msb (by decide)

/-- Rounding keeps the sign: the bits below it are at most the infinity's. -/
theorem rne32_msb (neg : Bool) (num den : Nat) : (rne32 neg num den).msb = neg :=
  withSign_msb ((min_le_right _ _).trans_lt (by decide))

section Sign

variable {a b : Datum} {p : Word}

/-- A product that is no NaN has the XOR of the operands' signs (R140 item 4). -/
theorem floatMul_sign (h : floatMul a b = some p) :
    ∃ na nb, a.sign = some na ∧ b.sign = some nb ∧ p.msb = (na ^^ nb) := by
  cases a with
  | nan => cases h
  | infinite na =>
    cases b with
    | nan => cases h
    | infinite nb => exact ⟨na, nb, rfl, rfl, Option.some.inj h ▸ infinityOf_msb _⟩
    | finite nb mb =>
      obtain ⟨-, hp⟩ := Option.ite_none_left_eq_some.mp h
      exact ⟨na, nb, rfl, rfl, Option.some.inj hp ▸ infinityOf_msb _⟩
  | finite na ma =>
    cases b with
    | nan => cases h
    | infinite nb =>
      obtain ⟨-, hp⟩ := Option.ite_none_left_eq_some.mp h
      exact ⟨na, nb, rfl, rfl, Option.some.inj hp ▸ infinityOf_msb _⟩
    | finite nb mb => exact ⟨na, nb, rfl, rfl, Option.some.inj h ▸ rne32_msb _ _ _⟩

/-- A quotient that is no NaN has the XOR of the operands' signs, a zero divisor included. -/
theorem floatDiv_sign (h : floatDiv a b = some p) :
    ∃ na nb, a.sign = some na ∧ b.sign = some nb ∧ p.msb = (na ^^ nb) := by
  cases a with
  | nan => cases h
  | infinite na =>
    cases b with
    | nan | infinite => cases h
    | finite nb mb => exact ⟨na, nb, rfl, rfl, Option.some.inj h ▸ infinityOf_msb _⟩
  | finite na ma =>
    cases b with
    | nan => cases h
    | infinite nb => exact ⟨na, nb, rfl, rfl, Option.some.inj h ▸ withSign_msb (by decide)⟩
    | finite nb mb =>
      refine ⟨na, nb, rfl, rfl, ?_⟩
      rw [floatDiv] at h
      split at h
      · obtain ⟨-, hp⟩ := Option.ite_none_left_eq_some.mp h
        exact Option.some.inj hp ▸ infinityOf_msb _
      · exact Option.some.inj h ▸ rne32_msb _ _ _

end Sign

/-- Bit 31 of a product or quotient that is no NaN. -/
theorem floatMul_or_floatDiv_msb {v w p : Word}
    (h : floatMul (f32 v) (f32 w) = some p ∨ floatDiv (f32 v) (f32 w) = some p) :
    p.msb = (v.msb ^^ w.msb) := by
  obtain ⟨nv, nw, hv, hw, hp⟩ := h.elim floatMul_sign floatDiv_sign
  rw [hp, f32_sign hv, f32_sign hw]

/-- Settles O39. -/
theorem signedZerosAndInfinities : Obligations.SignedZerosAndInfinities := by
  unfold Obligations.SignedZerosAndInfinities
  intro zero infinity
  have hinf : ∀ neg, infinityOf neg = infinity neg := infinityOf_pattern
  have hzero : ∀ neg, withSign neg 0 = zero neg := withSign_zero
  simp only [← hinf, ← hzero]
  refine ⟨fun neg mag => ⟨floatAdd_not_self neg mag, floatAdd_not_self neg mag⟩,
    fun n m => ⟨floatAdd_zero_zero n m, floatAdd_zero_zero n (!m)⟩,
    fun n m mag => ⟨floatMul_of_product_zero (Nat.zero_mul mag), floatMul_of_product_zero (Nat.mul_zero mag),
      floatDiv_zero_left⟩,
    fun n m mag => ⟨floatDiv_zero_right, rfl⟩, fun v w p => floatMul_or_floatDiv_msb⟩

end Sys2Proof.Machine
end

section
/-! Comparisons: a truth value retired to a register, and the float relations as relations between the
operands' places in IEEE order. -/

namespace Sys2Proof.Machine

/-! ### Integer comparisons -/

theorem truthWord_decide (p : Prop) [Decidable p] : truthWord (decide p) = if p then 1 else 0 :=
  if_congr decide_eq_true_iff rfl rfl

/-- With good fields an integer comparison is one register step, 1 or 0 its result (R150). -/
theorem intCompare_registerStep {s : State} {ra rb rd : RegField} (rel : Int → Int → Prop)
    [∀ a b, Decidable (rel a b)] (hok : s.fieldsOk [ra, rb, rd] = true) :
    ∃ t, intCompare (fun a b => decide (rel a b)) ra rb rd s = .next t ∧
      RegisterStep s t rd (if rel (sint (s.reg ra)) (sint (s.reg rb)) then 1 else 0) 4 := by
  rw [← truthWord_decide]
  exact ⟨_, checkFields_ok _ hok, s.setReg_registerStep rd _ 4⟩

/-- Settles O40. -/
theorem integerComparisons : Obligations.IntegerComparisons := by
  refine ⟨fun ra rb rd tail => ⟨?_, ?_, ?_, ?_, ?_, ?_⟩, fun s ra rb rd hok => ⟨?_, ?_, ?_, ?_, ?_, ?_⟩⟩
  · exact decode_four_bytes (op := 0x0C) ra rb rd tail (by decide) (by decide)
  · exact decode_four_bytes (op := 0x0D) ra rb rd tail (by decide) (by decide)
  · exact decode_four_bytes (op := 0x0E) ra rb rd tail (by decide) (by decide)
  · exact decode_four_bytes (op := 0x0F) ra rb rd tail (by decide) (by decide)
  · exact decode_four_bytes (op := 0x10) ra rb rd tail (by decide) (by decide)
  · exact decode_four_bytes (op := 0x11) ra rb rd tail (by decide) (by decide)
  · exact intCompare_registerStep (fun a b => a = b) hok
  · exact intCompare_registerStep (fun a b => a ≠ b) hok
  · exact intCompare_registerStep (fun a b => a > b) hok
  · exact intCompare_registerStep (fun a b => a < b) hok
  · exact intCompare_registerStep (fun a b => a ≥ b) hok
  · exact intCompare_registerStep (fun a b => a ≤ b) hok

/-! ### Places in IEEE order (R157) -/

/-- Both data have a place in IEEE order, and the places stand in `rel`. -/
def Datum.Related (rel : Int → Int → Prop) (a b : Datum) : Prop :=
  ∃ x y, a.rank = some x ∧ b.rank = some y ∧ rel x y

section Related

variable {rel rel' : Int → Int → Prop} {a b : Datum}

theorem Datum.related_swap : Datum.Related rel b a ↔ Datum.Related (fun x y => rel y x) a b :=
  ⟨fun ⟨x, y, hb, ha, h⟩ => ⟨y, x, ha, hb, h⟩, fun ⟨x, y, ha, hb, h⟩ => ⟨y, x, hb, ha, h⟩⟩

theorem Datum.related_or :
    Datum.Related rel a b ∨ Datum.Related rel' a b ↔ Datum.Related (fun x y => rel x y ∨ rel' x y) a b := by
  simp only [Datum.Related, and_or_left, exists_or]

end Related

/-- IEEE equality and less-than of two data (R157) are those of their places. -/
structure Datum.ComparesByPlace (a b : Datum) : Prop where
  eq_iff : Datum.eq a b = true ↔ Datum.Related (fun x y => x = y) a b
  lt_iff : Datum.lt a b = true ↔ Datum.Related (fun x y => x < y) a b

namespace Datum.ComparesByPlace

theorem nan_left (b : Datum) : Datum.ComparesByPlace .nan b :=
  have hnone {rel} : ¬Datum.Related rel .nan b := fun ⟨_, _, ha, _⟩ => nomatch ha
  ⟨iff_of_false nofun hnone, iff_of_false nofun hnone⟩

theorem nan_right (a : Datum) : Datum.ComparesByPlace a .nan :=
  have hnone {rel} : ¬Datum.Related rel a .nan := fun ⟨_, _, _, hb, _⟩ => nomatch hb
  ⟨iff_of_false (by cases a <;> nofun) hnone, iff_of_false (by cases a <;> nofun) hnone⟩

theorem of_rank {a b : Datum} {x y : Int} (ha : a.rank = some x) (hb : b.rank = some y)
    (heq : Datum.eq a b = true ↔ x = y) (hlt : Datum.lt a b = true ↔ x < y) :
    Datum.ComparesByPlace a b :=
  ⟨by simpa [Datum.Related, ha, hb] using heq, by simpa [Datum.Related, ha, hb] using hlt⟩

end Datum.ComparesByPlace

/-- The place of a finite datum lies strictly between the places of the infinities. -/
theorem f32_finite_place {w : Word} {neg : Bool} {mag : Nat} (h : f32 w = .finite neg mag) :
    -(2 ^ 128 * unitsPerOne : Int) < signedMag neg mag ∧
      signedMag neg mag < (2 ^ 128 * unitsPerOne : Int) := by
  rw [← abs_lt, abs_signedMag]
  exact_mod_cast f32_finite_lt h

theorem infinite_place_pos : (0 : Int) < 2 ^ 128 * unitsPerOne := by
  unfold unitsPerOne
  positivity

/-- With a NaN neither side holds; the infinities lie beyond every finite place; between finite data the
operations compare the places themselves. -/
theorem f32_comparesByPlace (v w : Word) : Datum.ComparesByPlace (f32 v) (f32 w) := by
  have hpos := infinite_place_pos
  cases hv : f32 v with
  | nan => exact .nan_left _
  | infinite nv =>
    cases hw : f32 w with
    | nan => exact .nan_right _
    | infinite nw =>
      refine .of_rank rfl rfl ?_ ?_
      · cases nv <;> cases nw <;> simp [Datum.eq] <;> omega
      · cases nv <;> cases nw <;> simp [Datum.lt]
        omega
    | finite nw mw =>
      have hplace := f32_finite_place hw
      refine .of_rank rfl rfl ?_ ?_
      · cases nv <;> simp [Datum.eq] <;> omega
      · cases nv <;> simp [Datum.lt] <;> omega
  | finite nv mv =>
    have hplace := f32_finite_place hv
    cases hw : f32 w with
    | nan => exact .nan_right _
    | infinite nw =>
      refine .of_rank rfl rfl ?_ ?_
      · cases nw <;> simp [Datum.eq] <;> omega
      · cases nw <;> simp [Datum.lt] <;> omega
    | finite nw mw => exact .of_rank rfl rfl decide_eq_true_iff decide_eq_true_iff

theorem f32_le_iff_related (v w : Word) :
    Datum.le (f32 v) (f32 w) = true ↔ Datum.Related (fun x y => x ≤ y) (f32 v) (f32 w) := by
  obtain ⟨heq, hlt⟩ := f32_comparesByPlace v w
  simp only [Datum.le, Bool.or_eq_true, hlt, heq, Datum.related_or, le_iff_lt_or_eq]

/-! ### Float comparisons -/

/-- With good fields a float comparison is one register step, 1 its result where `holds` and 0 where not
(R150). -/
theorem floatCompare_writes {s : State} {ra rb rd : RegField} {holds : Prop}
    (rel : Datum → Datum → Bool) (hok : s.fieldsOk [ra, rb, rd] = true)
    (hrel : rel (f32 (s.reg ra)) (f32 (s.reg rb)) = true ↔ holds) :
    ∃ t v, floatCompare rel ra rb rd s = .next t ∧ RegisterStep s t rd v 4 ∧ (holds → v = 1) ∧
      (¬holds → v = 0) :=
  ⟨_, _, checkFields_ok _ hok, s.setReg_registerStep rd _ 4, fun h => if_pos (hrel.mpr h),
    fun h => if_neg (mt hrel.mp h)⟩

/-- Settles O41: FGT and FGTQ are FLT and FLTQ with the operands swapped. -/
theorem floatComparisons : Obligations.FloatComparisons := by
  refine ⟨fun ra rb rd tail => ⟨?_, ?_, ?_, ?_, ?_, ?_⟩, fun s ra rb rd hok => ⟨?_, ?_, ?_, ?_, ?_, ?_⟩⟩
  · exact decode_four_bytes (op := 0x12) ra rb rd tail (by decide) (by decide)
  · exact decode_four_bytes (op := 0x13) ra rb rd tail (by decide) (by decide)
  · exact decode_four_bytes (op := 0x14) ra rb rd tail (by decide) (by decide)
  · exact decode_four_bytes (op := 0x15) ra rb rd tail (by decide) (by decide)
  · exact decode_four_bytes (op := 0x16) ra rb rd tail (by decide) (by decide)
  · exact decode_four_bytes (op := 0x17) ra rb rd tail (by decide) (by decide)
  · exact floatCompare_writes Datum.eq hok (f32_comparesByPlace _ _).eq_iff
  · refine floatCompare_writes (fun a b => !Datum.eq a b) hok ?_
    rw [Bool.not_eq_true', ← Bool.not_eq_true]
    exact (f32_comparesByPlace _ _).eq_iff.not
  · exact floatCompare_writes (fun a b => Datum.lt b a) hok
      ((f32_comparesByPlace _ _).lt_iff.trans Datum.related_swap)
  · exact floatCompare_writes Datum.lt hok (f32_comparesByPlace _ _).lt_iff
  · exact floatCompare_writes (fun a b => Datum.le b a) hok
      ((f32_le_iff_related _ _).trans Datum.related_swap)
  · exact floatCompare_writes Datum.le hok (f32_le_iff_related _ _)

end Sys2Proof.Machine
end

section
/-! Jumps: pc takes the target or npc and nothing else changes, or a relative target out of range faults. -/

namespace Sys2Proof.Machine

variable {s : State}

/-! ### Absolute jumps (R171, R174, R175) -/

/-- A conditional jump moves pc to its target or to npc, and nothing else changes. -/
theorem branch_answers {fields : List RegField} (c : Prop) [Decidable c] (target : Word)
    (hok : s.fieldsOk fields = true) :
    ∃ t, checkFields fields s (.next (if c then s.jumpTo target else s.advance 4)) = .next t ∧
      { t with pc := s.pc } = s ∧ t.pc = if c then target else s.pc + 4 := by
  refine ⟨_, checkFields_ok _ hok, ?_⟩
  split
  · exact ⟨rfl, rfl⟩
  · exact ⟨rfl, rfl⟩

/-- Settles O42: any nonzero pattern counts as true. -/
theorem absoluteJumps : Obligations.AbsoluteJumps := by
  refine ⟨fun a b p q tail => ⟨?_, ?_, ?_⟩, fun s r hok => ?_, fun s a b hok => ⟨?_, ?_⟩⟩
  · exact decode_four_bytes (op := 0x18) a p q tail (by decide) (by decide)
  · exact decode_four_bytes (op := 0x1B) a b q tail (by decide) (by decide)
  · exact decode_four_bytes (op := 0x1C) a b q tail (by decide) (by decide)
  · exact ⟨_, checkFields_ok _ hok, s.jumpTo_pc _, rfl⟩
  · exact branch_answers (s.reg a ≠ 0) (s.reg b) hok
  · exact branch_answers (s.reg a = 0) (s.reg b) hok

/-! ### Relative jumps (R170, R172, R173) -/

section Relative

variable {target : Int}

/-- A target in range is its own pattern, so the write to pc wraps nothing (R170 item 1). -/
theorem toNat_u32_of_mem_range (h : 0 ≤ target ∧ target < 2 ^ 32) : ((u32 target).toNat : Int) = target := by
  rw [BitVec.toNat_ofInt, Int.toNat_of_nonneg (Int.emod_nonneg _ (by decide))]
  exact Int.emod_eq_of_lt h.1 h.2

theorem jumpRelative_of_mem_range (h : 0 ≤ target ∧ target < 2 ^ 32) :
    jumpRelative target s = .next (s.jumpTo (u32 target)) :=
  if_neg (by omega)

theorem jumpRelative_of_outside (h : target < 0 ∨ 2 ^ 32 ≤ target) :
    jumpRelative target s = .next (s.raise .badJumpTarget) :=
  if_pos h

end Relative

/-- With good fields a relative jump goes to its unbounded target or takes its fault (D6). -/
theorem relativeJump_answers {fields : List RegField} (target : Int) (hok : s.fieldsOk fields = true) :
    (0 ≤ target ∧ target < 2 ^ 32 →
        ∃ t, checkFields fields s (jumpRelative target s) = .next t ∧ (t.pc.toNat : Int) = target ∧
          { t with pc := s.pc } = s) ∧
      (target < 0 ∨ 2 ^ 32 ≤ target →
        ∃ t, checkFields fields s (jumpRelative target s) = .next t ∧ FaultStep s t .badJumpTarget) := by
  rw [checkFields_ok _ hok]
  refine ⟨fun h => ?_, fun h => ?_⟩
  · exact ⟨_, jumpRelative_of_mem_range h, toNat_u32_of_mem_range h, rfl⟩
  · exact ⟨_, jumpRelative_of_outside h, s.raise_faultStep _⟩

/-- Settles O43: npc, the base of both, is that of a 4-byte instruction (D4, D5). -/
theorem relativeJumps : Obligations.RelativeJumps := by
  refine ⟨fun r p q tail => ⟨?_, ?_⟩, fun s r hok => ⟨?_, ?_⟩⟩
  · exact decode_four_bytes (op := 0x19) r p q tail (by decide) (by decide)
  · exact decode_four_bytes (op := 0x1A) r p q tail (by decide) (by decide)
  · exact relativeJump_answers (npcOf s + sint (s.reg r)) hok
  · exact relativeJump_answers (npcOf s - sint (s.reg r)) hok

end Sys2Proof.Machine
end

section
/-! The operand stack: PUSH and POP move one word between a register and the top slot, SPUSH and SPOP move
sp alone, and a move past either end faults. -/

namespace Sys2Proof.Machine

/-! ### What the four instructions answer (R190 to R193) -/

section Answers

variable {s : State} {r : RegField}

theorem exec_push_of_lt (hok : s.fieldsOk [r] = true) (h : s.sp < s.cfg.stackN) :
    exec (.push r) s = .next (((s.setSlot s.sp (s.reg r)).setSp (s.sp + 1)).advance 4) :=
  (checkFields_ok _ hok).trans (if_neg h.not_ge)

theorem exec_push_of_full (hok : s.fieldsOk [r] = true) (h : s.cfg.stackN ≤ s.sp) :
    exec (.push r) s = .next (s.raise .stackOverflow) :=
  (checkFields_ok _ hok).trans (if_pos h)

theorem exec_pop_of_ne_zero (hok : s.fieldsOk [r] = true) (h : s.sp ≠ 0) :
    exec (.pop r) s = .next (((s.setSp (s.sp - 1)).setReg r (s.slot (s.sp - 1))).advance 4) :=
  (checkFields_ok _ hok).trans (if_neg h)

theorem exec_pop_of_empty (hok : s.fieldsOk [r] = true) (h : s.sp = 0) :
    exec (.pop r) s = .next (s.raise .stackUnderflow) :=
  (checkFields_ok _ hok).trans (if_pos h)

theorem exec_spush_of_le (hok : s.fieldsOk [r] = true) (h : s.sp + uint (s.reg r) ≤ s.cfg.stackN) :
    exec (.spush r) s = .next ((s.setSp (s.sp + uint (s.reg r))).advance 4) :=
  (checkFields_ok _ hok).trans (if_neg h.not_gt)

theorem exec_spush_of_gt (hok : s.fieldsOk [r] = true) (h : s.cfg.stackN < s.sp + uint (s.reg r)) :
    exec (.spush r) s = .next (s.raise .stackOverflow) :=
  (checkFields_ok _ hok).trans (if_pos h)

theorem exec_spop_of_le (hok : s.fieldsOk [r] = true) (h : uint (s.reg r) ≤ s.sp) :
    exec (.spop r) s = .next ((s.setSp (s.sp - uint (s.reg r))).advance 4) :=
  (checkFields_ok _ hok).trans (if_neg h.not_gt)

theorem exec_spop_of_gt (hok : s.fieldsOk [r] = true) (h : s.sp < uint (s.reg r)) :
    exec (.spop r) s = .next (s.raise .stackUnderflow) :=
  (checkFields_ok _ hok).trans (if_pos h)

end Answers

/-! ### Slots (R28) -/

@[simp] theorem State.slot_setSlot_same (s : State) (k : Nat) (v : Word) : (s.setSlot k v).slot k = v :=
  Memory.read_write_same _ _ _

theorem State.slot_setSlot_other (s : State) {j k : Nat} (v : Word) (h : j ≠ k) :
    (s.setSlot k v).slot j = s.slot j :=
  Memory.read_write_other _ v h

/-- A slot below the capacity is the unified word of its own number and no other word (R51). -/
theorem State.memRead_setSlot_other {s : State} {a k : Nat} (hk : k < s.cfg.stackN) (v : Word) (h : a ≠ k) :
    (s.setSlot k v).memRead a = s.memRead a :=
  State.memRead_writePlace_other (translate_of_lt_stackN hk) v h

/-! ### The obligations -/

/-- Settles O44: below the capacity the one place PUSH writes is the slot at sp. -/
theorem pushWritesTheNextSlot : Obligations.PushWritesTheNextSlot := by
  refine ⟨fun r p q tail => ?_, fun s r hok => ⟨fun hlt => ?_, fun hfull => ?_⟩⟩
  · exact decode_four_bytes r p q tail (by decide) (by decide)
  · exact ⟨_, exec_push_of_lt hok hlt, s.slot_setSlot_same s.sp (s.reg r), rfl, rfl,
      fun k hk => s.slot_setSlot_other (s.reg r) hk,
      fun a ha => State.memRead_setSlot_other hlt (s.reg r) ha, rfl⟩
  · exact ⟨_, exec_push_of_full hok hfull, s.raise_faultStep _⟩

/-- Settles O45: POP writes its register and sp, and memory is a function of neither. -/
theorem popReadsTheTopSlot : Obligations.PopReadsTheTopSlot := by
  refine ⟨fun r p q tail => ?_, fun s r hok => ⟨fun hne => ?_, fun hzero => ?_⟩⟩
  · exact decode_four_bytes r p q tail (by decide) (by decide)
  · exact ⟨_, exec_pop_of_ne_zero hok hne, State.reg_setReg_same _ r _,
      fun q hq => State.reg_setReg_other (s.setSp (s.sp - 1)) _ hq, rfl, rfl,
      State.memRead_congr rfl rfl rfl, rfl⟩
  · exact ⟨_, exec_pop_of_empty hok hzero, s.raise_faultStep _⟩

/-- Settles O46: the sum and the difference are of naturals, so neither wraps. -/
theorem reserveAndDiscardMoveSp : Obligations.ReserveAndDiscardMoveSp := by
  refine ⟨fun r p q tail => ⟨?_, ?_⟩, fun s r hok =>
    ⟨fun hle => ?_, fun hgt => ?_, fun hle => ?_, fun hgt => ?_⟩⟩
  · exact decode_four_bytes (op := 0x1E) r p q tail (by decide) (by decide)
  · exact decode_four_bytes (op := 0x20) r p q tail (by decide) (by decide)
  · exact ⟨_, exec_spush_of_le hok hle, rfl, rfl, State.memRead_congr rfl rfl rfl, rfl⟩
  · exact ⟨_, exec_spush_of_gt hok hgt, s.raise_faultStep _⟩
  · exact ⟨_, exec_spop_of_le hok hle, Nat.sub_add_cancel hle, rfl, State.memRead_congr rfl rfl rfl, rfl⟩
  · exact ⟨_, exec_spop_of_gt hok hgt, s.raise_faultStep _⟩

/-- Settles O47: POP reads the slot PUSH wrote, for sp + 1 - 1 is sp, and PUSH kept the registers. -/
theorem pushThenPopCarriesTheValue : Obligations.PushThenPopCarriesTheValue := by
  intro s r q hok hlt
  obtain ⟨hr, hq⟩ : s.fieldsOk [r] = true ∧ s.fieldsOk [q] = true := by
    simpa [State.fieldsOk_iff] using hok
  obtain ⟨t, hpush, hslot, hsp, -, -, -, hkept⟩ := (pushWritesTheNextSlot.2 s r hr).1 hlt
  have hcfg : t.cfg = s.cfg := (congrArg State.cfg hkept :)
  have hregs : t.regs = s.regs := (congrArg State.regs hkept :)
  have hqt : t.fieldsOk [q] = true := by rwa [State.fieldsOk, hcfg]
  have hback : t.sp - 1 = s.sp := by omega
  obtain ⟨u, hpop, htop, hothers, hsp', -, -, -⟩ := (popReadsTheTopSlot.2 t q hqt).1 (by omega)
  refine ⟨t, u, hpush, hpop, ?_, hsp'.trans hback, fun p hp => ?_⟩
  · calc u.reg q
      _ = t.slot s.sp := by rw [htop, hback]
      _ = s.reg r := hslot
  · calc u.reg p
      _ = t.reg p := hothers p hp
      _ = s.reg p := by rw [State.reg, hregs, State.reg]

end Sys2Proof.Machine
end

section
/-! Conversions and copies: each retires a function of one source register. FTOI rounds a datum's value
toward zero, and ITOF is exact on the integers that binary32 holds. -/

namespace Sys2Proof.Machine

/-! ### The register step -/

/-- With good fields a two-register instruction is one register step. -/
theorem unaryTo_registerStep {s : State} {src dst : RegField} (f : Word → Word)
    (hok : s.fieldsOk [src, dst] = true) :
    ∃ t, unaryTo f src dst s = .next t ∧ RegisterStep s t dst (f (s.reg src)) 4 :=
  ⟨_, checkFields_ok _ hok, s.setReg_registerStep dst _ 4⟩

/-- Settles O57: both copy by the identity. -/
theorem bitCopies : Obligations.BitCopies := by
  refine ⟨fun a d p tail => ⟨?_, ?_⟩, fun s src dst hok => ⟨?_, ?_⟩⟩
  · exact decode_four_bytes (op := 0x27) a d p tail (by decide) (by decide)
  · exact decode_four_bytes (op := 0x2B) a d p tail (by decide) (by decide)
  · exact unaryTo_registerStep (fun v => v) hok
  · exact unaryTo_registerStep (fun v => v) hok

/-! ### Integers to binary32 (R221, R223) -/

/-- An unsigned reading is never negative, so F32 rounds to a pattern without a sign. -/
theorem intToFloat_natCast (n : Nat) : intToFloat n = rne32 false (2 ^ 149 * n) 1 := by
  have hsign : decide ((n : Int) < 0) = false := decide_eq_false (Int.natCast_nonneg n).not_gt
  rw [intToFloat, hsign, Int.natAbs_natCast, unitsPerOne]

/-- Settles O55. -/
theorem integerToFloatRounds : Obligations.IntegerToFloatRounds := by
  refine ⟨fun a d p tail => ⟨?_, ?_⟩, fun s src dst hok => ⟨?_, ?_⟩⟩
  · exact decode_four_bytes (op := 0x26) a d p tail (by decide) (by decide)
  · exact decode_four_bytes (op := 0x28) a d p tail (by decide) (by decide)
  · exact unaryTo_registerStep (fun v => intToFloat (sint v)) hok
  · rw [← intToFloat_natCast]
    exact unaryTo_registerStep (fun v => intToFloat (uint v)) hok

/-- The largest finite magnitude is the 24-bit significand of ones at the top exponent (R9). -/
theorem f32_finite_le {w : Word} {neg : Bool} {mag : Nat} (h : f32 w = .finite neg mag) :
    mag ≤ (2 ^ 24 - 1) * 2 ^ 253 := by
  rcases f32_finite_multiple h 253 with ⟨k, rfl⟩ | hlt
  · have hk : 2 ^ 253 * k < 2 ^ 253 * 2 ^ 24 := by simpa [unitsPerOne] using f32_finite_lt h
    have hk' : k ≤ 2 ^ 24 - 1 := Nat.le_sub_one_of_lt (Nat.lt_of_mul_lt_mul_left hk)
    rw [Nat.mul_comm]
    exact Nat.mul_le_mul_right _ hk'
  · omega

/-- Rounding a magnitude that a finite datum of the sign has gives that datum: none is nearer. -/
theorem f32_rne32_of_exact {w : Word} {neg : Bool} {mag : Nat} (h : f32 w = .finite neg mag) :
    f32 (rne32 neg mag 1) = .finite neg mag := by
  have hle := f32_finite_le h
  obtain ⟨m, hm, hnear⟩ := (roundingIsToNearestTiesToEven neg mag 1 one_pos).2 (by omega)
  obtain ⟨hdist, -⟩ := hnear w mag h
  obtain rfl : m = mag := by
    rw [Nat.cast_one, mul_one, mul_one, sub_self, abs_zero, abs_nonpos_iff] at hdist
    omega
  exact hm

/-- ITOF is exact on an integer that some pattern encodes: a nonzero one has that pattern's sign, and 0 gives
+0 even where the pattern is that of -0. -/
theorem toRat_intToFloat {n : Int} {w : Word} (h : (f32 w).toRat = some (n : ℚ)) :
    (f32 (intToFloat n)).toRat = some (n : ℚ) := by
  obtain ⟨neg, mag, hw, hval⟩ := Datum.toRat_eq_some h
  have hmag : signedMag neg mag = 2 ^ 149 * n := by
    rw [eq_div_iff (by positivity)] at hval
    rw [Int.mul_comm]
    exact_mod_cast hval.symm
  rcases eq_or_ne mag 0 with rfl | hne
  · obtain rfl : n = 0 := by cases neg <;> simpa [signedMag] using hmag
    have hzero : f32 (intToFloat 0) = .finite false 0 := f32_rne32_of_exact (w := 0) (by decide)
    rw [hzero]
    simp [Datum.toRat, signedMag]
  · have hneg : n < 0 ↔ neg = true := by
      rw [← signedMag_neg_iff hne, hmag]
      omega
    have hsign : decide (n < 0) = neg := by simp [hneg]
    have hnum : unitsPerOne * n.natAbs = mag := by
      have habs := abs_signedMag neg mag
      rw [hmag, Int.abs_eq_natAbs, Int.natAbs_mul] at habs
      exact_mod_cast habs
    rw [intToFloat, hsign, hnum, f32_rne32_of_exact hw, ← hw, h]

/-! ### Binary32 to integers (R220) -/

/-- The truncated quotient of an integer is its exact one rounded toward zero. -/
theorem tdiv_eq_floor_or_ceil (n : Int) (d : Nat) :
    tdiv n d = if 0 ≤ n then ⌊(n : ℚ) / d⌋ else ⌈(n : ℚ) / d⌉ := by
  split
  · next h => rw [Rat.floor_intCast_div_natCast, tdiv, Int.tdiv_eq_ediv_of_nonneg h]
  · next h =>
    rw [Rat.ceil_intCast_div_natCast, tdiv, ← Int.tdiv_eq_ediv_of_nonneg (by omega), Int.neg_tdiv, neg_neg]

/-- What FTOI makes of a datum with a value (R220). -/
theorem floatToInt_eq {a : Datum} {x : ℚ} (h : a.toRat = some x) :
    floatToInt a = if 2 ^ 31 ≤ x then 2 ^ 31 - 1 else if x ≤ -2 ^ 31 - 1 then -2 ^ 31
      else if 0 ≤ x then ⌊x⌋ else ⌈x⌉ := by
  obtain ⟨neg, mag, rfl, rfl⟩ := Datum.toRat_eq_some h
  simp only [floatToInt]
  generalize signedMag neg mag = n
  have hpos : (0 : ℚ) < 2 ^ 149 := by positivity
  have hunits : (unitsPerOne : ℚ) = 2 ^ 149 := by norm_num [unitsPerOne]
  have hhigh : 2 ^ 31 * (unitsPerOne : ℤ) ≤ n ↔ (2 : ℚ) ^ 31 ≤ n / 2 ^ 149 := by
    rw [le_div_iff₀ hpos, unitsPerOne]
    exact_mod_cast Iff.rfl
  have hlow : n ≤ (-2 ^ 31 - 1) * (unitsPerOne : ℤ) ↔ (n : ℚ) / 2 ^ 149 ≤ -2 ^ 31 - 1 := by
    rw [div_le_iff₀ hpos, unitsPerOne]
    exact_mod_cast Iff.rfl
  have hsign : 0 ≤ n ↔ 0 ≤ (n : ℚ) / 2 ^ 149 := by
    rw [le_div_iff₀ hpos, zero_mul, Int.cast_nonneg_iff]
  simp only [tdiv_eq_floor_or_ceil, hhigh, hlow, hsign, hunits]

/-- Settles O54: the value's place selects the branch of `floatToInt_eq`. -/
theorem floatToIntegerTruncatesAndSaturates : Obligations.FloatToIntegerTruncatesAndSaturates := by
  refine ⟨fun a d p tail => ?_, fun s src dst hok => ?_⟩
  · exact decode_four_bytes (op := 0x25) a d p tail (by decide) (by decide)
  obtain ⟨t, hrun, hstep⟩ := unaryTo_registerStep (fun v => u32 (floatToInt (f32 v))) hok
  refine ⟨t, _, hrun, hstep, fun h => ?_, fun h => ?_, fun h => ?_, fun x hx => ?_⟩
  · rw [h]; rfl
  · rw [h]; rfl
  · rw [h]; rfl
  rw [floatToInt_eq hx]
  refine ⟨fun h => if_pos h, fun h => ?_, fun h h' => ?_, fun h h' => ?_⟩
  · rw [if_neg (by linarith), if_pos h]
  · rw [if_neg h'.not_ge, if_neg (by linarith), if_pos h]
  · rw [if_neg (by linarith), if_neg h.not_ge, if_neg h'.not_ge]

/-- FTOI of a datum whose value is a word's signed reading. -/
theorem floatToInt_of_sint {a : Datum} {v : Word} (h : a.toRat = some (sint v : ℚ)) :
    floatToInt a = sint v := by
  have hlo : -2 ^ 31 ≤ sint v := BitVec.le_toInt v
  have hhi : sint v < 2 ^ 31 := BitVec.toInt_lt
  have hlo' : (-2 ^ 31 : ℚ) ≤ sint v := by exact_mod_cast hlo
  have hhi' : (sint v : ℚ) < 2 ^ 31 := by exact_mod_cast hhi
  rw [floatToInt_eq h, if_neg hhi'.not_ge, if_neg (by linarith), Int.floor_intCast, Int.ceil_intCast,
    ite_self]

/-- Settles O56: ITOF is exact on the integer, and FTOI of an integer in range is that integer. -/
theorem integerFloatRoundTrip : Obligations.IntegerFloatRoundTrip := by
  rintro s src mid dst hok ⟨w, hw⟩
  obtain ⟨hitof, hftoi⟩ : s.fieldsOk [src, mid] = true ∧ s.fieldsOk [mid, dst] = true := by
    simp only [State.fieldsOk_iff, List.forall_mem_cons] at hok ⊢
    tauto
  obtain ⟨t, hrun, hmid⟩ := unaryTo_registerStep (fun v => intToFloat (sint v)) hitof
  have hok' : t.fieldsOk [mid, dst] = true := by rwa [State.fieldsOk, hmid.rest.cfg]
  obtain ⟨u, hrun', hdst⟩ := unaryTo_registerStep (fun v => u32 (floatToInt (f32 v))) hok'
  refine ⟨t, u, hrun, hrun', ?_⟩
  calc u.reg dst
    _ = u32 (floatToInt (f32 (intToFloat (sint (s.reg src))))) := by rw [hdst.result, hmid.result]
    _ = u32 (sint (s.reg src)) := by rw [floatToInt_of_sint (toRat_intToFloat hw)]
    _ = s.reg src := BitVec.ofInt_toInt

end Sys2Proof.Machine
end

section
/-! Halts and faults: a step that faults took the fault and did nothing else, which kinds it can raise, what
ends in Success, HLT and PRINT, and the host's commands around them. -/

namespace Sys2Proof

/-- The decoder reports the end of the program only where no byte is left (R92, R97). -/
theorem decode_eq_endOfProgram_iff {bytes : List Byte} : decode bytes = .endOfProgram ↔ bytes = [] := by
  refine ⟨fun h => ?_, fun h => h ▸ rfl⟩
  cases bytes with
  | nil => rfl
  | cons op rest =>
    rcases decode_cons op rest with ⟨-, e⟩ | ⟨-, -, e⟩ | ⟨hlt, -, e⟩ <;> rw [e] at h
    · cases h
    · cases h
    · obtain ⟨i, hi, -⟩ := exists_decodeOpcode hlt (rest.getD 0 0) (rest.getD 1 0) (rest.getD 2 0)
        (rest.getD 3 0) (rest.getD 4 0)
      rw [hi] at h
      cases h

end Sys2Proof

namespace Sys2Proof.Machine

variable {s t : State} {i : Instr} {k : FaultKind}

theorem State.fetch_eq_endOfProgram_iff : s.fetch = .endOfProgram ↔ s.progLen ≤ s.pc.toNat :=
  decode_eq_endOfProgram_iff.trans s.bytesAtPc_eq_nil

/-! ### Steps that fault (R240 to R245) -/

/-- An instruction that leaves a running engine in a fault took the fault and did nothing else: BadRegister
on a bad field, otherwise the one kind of its own rule. -/
theorem Effect.fault_cases (he : Effect s i t) (hrun : s.engine = .running) (hfault : t.engine = .fault k) :
    t = s.raise k ∧
      ((i.wellFormed s.cfg = false ∧ k = .badRegister) ∨
        (i.wellFormed s.cfg = true ∧ executeFaultOf i = some k)) := by
  cases he with
  | badRegister hbad =>
    obtain rfl := Engine.fault.inj hfault
    exact ⟨rfl, .inl ⟨hbad, rfl⟩⟩
  | ruleFault hok hk =>
    obtain rfl := Engine.fault.inj hfault
    exact ⟨rfl, .inr ⟨hok, hk⟩⟩
  | _ => simp [hrun] at hfault

/-- A step of a running engine that ends in a fault is the taking of that fault. -/
theorem step_eq_raise_of_fault (hrun : s.engine = .running) (h : step s = .next t)
    (hfault : t.engine = .fault k) : t = s.raise k := by
  refine step_keeps (P := fun u => u.engine = .fault k → u = s.raise k) (fun hf => ?_) (fun hf => ?_)
    (fun j hf => ?_) (fun i u he hf => (he.fault_cases hrun hf).1) h hfault
  · rw [hrun] at hf
    cases hf
  · cases hf
  · obtain rfl := Engine.fault.inj hf
    rfl

/-- Settles O12: the step took the fault, and taking a fault changes STATUS alone. -/
theorem faultsArePrecise : Obligations.FaultsArePrecise := by
  intro s t k hrun h hfault
  obtain rfl := step_eq_raise_of_fault hrun h hfault
  exact s.raise_faultStep k

/-- Settles O13: the fetch that yields no instruction names the kind, or else the instruction's effect. -/
theorem faultKindsByInstruction : Obligations.FaultKindsByInstruction := by
  intro s t k hrun h hfault
  rcases step_cases h with ⟨hne, -⟩ | ⟨-, ⟨-, rfl⟩ | ⟨hf, rfl⟩ | ⟨hf, rfl⟩ | ⟨i, hf, hexec⟩⟩
  · exact absurd hrun hne
  · cases hfault
  · exact .inl ⟨hf, (Engine.fault.inj hfault).symm⟩
  · exact .inr (.inl ⟨hf, (Engine.fault.inj hfault).symm⟩)
  · exact .inr (.inr ⟨i, hf, ((exec_effect hexec).fault_cases hrun hfault).2⟩)

/-! ### Steps that end in Success (R278) -/

theorem Effect.eq_hlt_of_success (he : Effect s i t) (hrun : s.engine = .running)
    (hsuccess : t.engine = .success) : i = .hlt := by
  cases he with
  | halt => rfl
  | _ => simp [hrun] at hsuccess

/-- Settles O14. -/
theorem successOnlyByHaltOrEndOfProgram : Obligations.SuccessOnlyByHaltOrEndOfProgram := by
  intro s t hrun h hsuccess
  rcases step_cases h with ⟨hne, -⟩ | ⟨-, ⟨hf, -⟩ | ⟨-, rfl⟩ | ⟨-, rfl⟩ | ⟨i, hf, hexec⟩⟩
  · exact absurd hrun hne
  · exact .inl (State.fetch_eq_endOfProgram_iff.mp hf)
  · cases hsuccess
  · cases hsuccess
  · obtain rfl := (exec_effect hexec).eq_hlt_of_success hrun hsuccess
    exact .inr hf

/-- Settles O6: STATE is 1 in Running. -/
theorem noStepOutsideRunning : Obligations.NoStepOutsideRunning := by
  refine fun s hstate => step_of_not_running fun hrun => hstate ?_
  obtain ⟨hfield, -⟩ := s.statusWord_fields
  rw [hfield, hrun, Engine.stateField]

/-! ### HLT and PRINT -/

/-- Settles O58: neither touches the stack or the arena, which is all a unified read depends on. -/
theorem haltAndPrint : Obligations.HaltAndPrint := by
  refine ⟨fun r p q tail => ⟨?_, ?_⟩, fun s => ?_, fun s r hok => ?_⟩
  · exact decode_four_bytes (op := 0x29) r p q tail (by decide) (by decide)
  · exact decode_four_bytes (op := 0x2A) r p q tail (by decide) (by decide)
  · exact ⟨_, rfl, rfl, State.statusWord_of_success rfl, State.memRead_congr rfl rfl rfl, rfl⟩
  · exact ⟨_, checkFields_ok _ hok, rfl, rfl, State.memRead_congr rfl rfl rfl, rfl⟩

/-! ### The host's commands (R270 to R273) -/

theorem hostCommand_run (hquiet : s.engine ≠ .running) : hostCommand .run s = .next s.hostRun :=
  if_neg hquiet

/-- Everything an answered host command can have done. -/
theorem hostCommand_cases {c : HostCmd} (h : hostCommand c s = .next t) :
    (c = .reset ∧ t = s.hostReset) ∨
      (∃ bytes, c = .loadProgram bytes ∧ s.engine ≠ .running ∧ bytes.length < 2 ^ 32 ∧
        t = s.hostLoad bytes) ∨
      (c = .run ∧ s.engine ≠ .running ∧ t = s.hostRun) := by
  cases c with
  | reset => exact .inl ⟨rfl, (Host.Outcome.next.inj h).symm⟩
  | loadProgram bytes =>
    simp only [hostCommand] at h
    split_ifs at h with hrun hlen
    exact .inr (.inl ⟨bytes, rfl, hrun, not_le.mp hlen, (Host.Outcome.next.inj h).symm⟩)
  | run =>
    simp only [hostCommand] at h
    split_ifs at h with hrun
    exact .inr (.inr ⟨rfl, hrun, (Host.Outcome.next.inj h).symm⟩)

/-- Settles O26. -/
theorem runSetsRunningAndNothingElse : Obligations.RunSetsRunningAndNothingElse :=
  ⟨fun s hquiet => ⟨s.hostRun, hostCommand_run hquiet, State.statusWord_of_running rfl, rfl⟩,
    fun _ hrun => ⟨if_pos hrun, fun _ => if_pos hrun⟩⟩

/-- RUN undoes the one change a fault made to a running engine (R248). -/
theorem State.hostRun_raise (hrun : s.engine = .running) (k : FaultKind) : (s.raise k).hostRun = s :=
  calc (s.raise k).hostRun
    _ = { s with engine := .running } := rfl
    _ = s := by rw [← hrun]

/-- Settles O28: RUN leads back to the state before the faulting step. -/
theorem runAfterFaultFaultsAgain : Obligations.RunAfterFaultFaultsAgain := by
  intro s t k hrun h hfault
  obtain rfl := step_eq_raise_of_fault hrun h hfault
  refine ⟨_, hostCommand_run (by simp), ?_⟩
  rwa [State.hostRun_raise hrun k]

section HostInvariant

variable (h : Inv s)
include h

theorem Inv.hostReset : Inv s.hostReset := { State.resetWith_inv h.cfg_valid with }

/-- LOAD_PROGRAM replaces the registers and the program alone of what the invariant speaks of. -/
theorem Inv.hostLoad {bytes : List Byte} (hlen : bytes.length < 2 ^ 32) : Inv (s.hostLoad bytes) :=
  { h with regs_wf := rfl, regs_below := rfl, prog_len := hlen }

theorem Inv.hostRun : Inv s.hostRun := { h with }

end HostInvariant

/-- Settles O20. -/
theorem hostCommandsKeepTheInvariant : Obligations.HostCommandsKeepTheInvariant := by
  intro c s t h hcmd
  rcases hostCommand_cases hcmd with ⟨-, rfl⟩ | ⟨bytes, -, -, hlen, rfl⟩ | ⟨-, -, rfl⟩
  · exact h.hostReset
  · exact h.hostLoad hlen
  · exact h.hostRun

end Sys2Proof.Machine
end
